-- ==== Sys2Proof/Word.lean ====
section
/-! DEFINITION. The two widths of the machine: a 16-bit word and an 8-bit byte (spec 00_scope.md R5). -/

namespace Sys2Proof

/-- A 16-bit data value, register value, operand, `pc` or `sp` (R5 `XLEN`, `PC_WIDTH`, `SP_WIDTH`). -/
abbrev Word := BitVec 16

/-- One memory cell, one byte of an instruction, one byte of I/O (R5 `CELL_WIDTH`, R6). -/
abbrev Byte := BitVec 8

end Sys2Proof
end

