-- ==== Sys2Proof/Syntax.lean ====
section
/-! DEFINITION. The instructions: one constructor per row of spec/opcode_table.json. Every row has the one format of
spec 30_encoding.md R51, so every constructor carries the three decoded fields `rx`, `ry`, `imm` (R52), the fields its
instruction ignores (R57) included; the reserved byte `b1` is not a decoded field (R52, R56). -/

namespace Sys2Proof

/-- The four general registers (spec 10_state.md R10), named by a 2-bit field. -/
inductive Reg where
  | r0 | r1 | r2 | r3
deriving DecidableEq, Repr

/-- The register's number, 0 to 3 (R10). -/
def Reg.number : Reg → Nat
  | .r0 => 0
  | .r1 => 1
  | .r2 => 2
  | .r3 => 3

/-- One instruction as the decoder delivers it (spec 30_encoding.md R52, R55). -/
inductive Instr where
  /-- Row MOV, R85. -/
  | mov (rx ry : Reg) (imm : Word)
  /-- Row ADD, R86. -/
  | add (rx ry : Reg) (imm : Word)
  /-- Row SUB, R87. -/
  | sub (rx ry : Reg) (imm : Word)
  /-- Row MUL, R88. -/
  | mul (rx ry : Reg) (imm : Word)
  /-- Row DIV, R89. -/
  | div (rx ry : Reg) (imm : Word)
  /-- Row LOAD, R95. -/
  | load (rx ry : Reg) (imm : Word)
  /-- Row STORE, R96. -/
  | store (rx ry : Reg) (imm : Word)
  /-- Row JMP, R100. -/
  | jmp (rx ry : Reg) (imm : Word)
  /-- Row JEQ, R101. -/
  | jeq (rx ry : Reg) (imm : Word)
  /-- Row JNE, R102. -/
  | jne (rx ry : Reg) (imm : Word)
  /-- Row CALL, R103. -/
  | call (rx ry : Reg) (imm : Word)
  /-- Row RET, R104. -/
  | ret (rx ry : Reg) (imm : Word)
  /-- Row PUSH, R110. -/
  | push (rx ry : Reg) (imm : Word)
  /-- Row POP, R111. -/
  | pop (rx ry : Reg) (imm : Word)
  /-- Row INT, R115. -/
  | int (rx ry : Reg) (imm : Word)
  /-- Row EXTENDED, R120. -/
  | extended (rx ry : Reg) (imm : Word)
deriving DecidableEq, Repr

/-- The decoded field `rx` (R52). -/
def Instr.rx : Instr → Reg
  | .mov x _ _ | .add x _ _ | .sub x _ _ | .mul x _ _ | .div x _ _ | .load x _ _ | .store x _ _ | .jmp x _ _
  | .jeq x _ _ | .jne x _ _ | .call x _ _ | .ret x _ _ | .push x _ _ | .pop x _ _ | .int x _ _ | .extended x _ _ => x

/-- The decoded field `ry` (R52). -/
def Instr.ry : Instr → Reg
  | .mov _ y _ | .add _ y _ | .sub _ y _ | .mul _ y _ | .div _ y _ | .load _ y _ | .store _ y _ | .jmp _ y _
  | .jeq _ y _ | .jne _ y _ | .call _ y _ | .ret _ y _ | .push _ y _ | .pop _ y _ | .int _ y _ | .extended _ y _ => y

/-- The decoded operand `imm` (R52, R54). -/
def Instr.imm : Instr → Word
  | .mov _ _ v | .add _ _ v | .sub _ _ v | .mul _ _ v | .div _ _ v | .load _ _ v | .store _ _ v | .jmp _ _ v
  | .jeq _ _ v | .jne _ _ v | .call _ _ v | .ret _ _ v | .push _ _ v | .pop _ _ v | .int _ _ v | .extended _ _ v => v

/-- The mnemonic, as spec/opcode_table.json spells it (R55). -/
def Instr.mnemonic : Instr → String
  | .mov _ _ _ => "MOV"
  | .add _ _ _ => "ADD"
  | .sub _ _ _ => "SUB"
  | .mul _ _ _ => "MUL"
  | .div _ _ _ => "DIV"
  | .load _ _ _ => "LOAD"
  | .store _ _ _ => "STORE"
  | .jmp _ _ _ => "JMP"
  | .jeq _ _ _ => "JEQ"
  | .jne _ _ _ => "JNE"
  | .call _ _ _ => "CALL"
  | .ret _ _ _ => "RET"
  | .push _ _ _ => "PUSH"
  | .pop _ _ _ => "POP"
  | .int _ _ _ => "INT"
  | .extended _ _ _ => "EXTENDED"

end Sys2Proof
end

