-- ==== Sys2Proof/WellFormed.lean ====
section
/-! DEFINITION. Well-formedness. The untyped field tuple of the codec (spec 30_encoding.md R53, where out-of-range inputs
are possible) has one check per field; an `Instr` carries typed fields, so every `Instr` passes the checks that remain
(R58: there is no illegal instruction). `Instr.canonical` is the form software should write (R56, R57, R66): every field
the instruction ignores is 0. -/

namespace Sys2Proof

/-- The four codec fields as plain numbers, before any range check (R53). -/
structure Fields where
  op : Nat
  rx : Nat
  ry : Nat
  imm : Nat
deriving DecidableEq, Repr

/-- The opcode is 0 to 15 (R51, R55). -/
def Fields.opOk (f : Fields) : Bool := f.op < 16

/-- regX is 0 to 3 (R51). -/
def Fields.rxOk (f : Fields) : Bool := f.rx < 4

/-- regY is 0 to 3 (R51). -/
def Fields.ryOk (f : Fields) : Bool := f.ry < 4

/-- The operand is 0 to 65535 (R51, R54). -/
def Fields.immOk (f : Fields) : Bool := f.imm < 65536

/-- Every field fits its place in the instruction word (R51). -/
def Fields.wellFormed (f : Fields) : Bool := f.opOk && f.rxOk && f.ryOk && f.immOk

/-- The operand fields of an instruction fit their places; true of every `Instr` (`Laws.instr_wellFormed`). -/
def Instr.wellFormed (i : Instr) : Bool := i.rx.number < 4 && i.ry.number < 4 && i.imm.toNat < 65536

/-- The same instruction with every field it ignores set to 0 (R57's table; R66's listing forms). -/
def Instr.canonical : Instr → Instr
  | .mov x y v => .mov x y (if y = .r0 then v else 0)
  | .add x y _ => .add x y 0
  | .sub x y _ => .sub x y 0
  | .mul x y _ => .mul x y 0
  | .div x y _ => .div x y 0
  | .load x _ v => .load x .r0 v
  | .store x _ v => .store x .r0 v
  | .jmp _ _ v => .jmp .r0 .r0 v
  | .jeq x y v => .jeq x y v
  | .jne x y v => .jne x y v
  | .call _ _ v => .call .r0 .r0 v
  | .ret _ _ _ => .ret .r0 .r0 0
  | .push x _ _ => .push x .r0 0
  | .pop x _ _ => .pop x .r0 0
  | .int _ _ v => .int .r0 .r0 v
  | .extended _ _ _ => .extended .r0 .r0 0

end Sys2Proof
end

