-- ==== Sys2Proof/Decode.lean ====
section
/-! DEFINITION. The decoder and the encoder, from the encoding tables of spec 30_encoding.md R51 to R57. The decoder is
total on any four bytes and refuses none (R52, R58); it refuses, by name, only a byte sequence shorter than an
instruction, which a fetch never delivers. -/

namespace Sys2Proof

/-- The register a 2-bit field names (R10, R51). -/
def Reg.ofBits (b : BitVec 2) : Reg :=
  match b.toNat with
  | 0 => .r0
  | 1 => .r1
  | 2 => .r2
  | _ => .r3

/-- The 2-bit field that names a register (R10, R51). -/
def Reg.bits : Reg → BitVec 2
  | .r0 => 0#2
  | .r1 => 1#2
  | .r2 => 2#2
  | .r3 => 3#2

/-- The opcode field of byte 0, `b0[7:4]` (R51, R52). -/
def opField (b0 : Byte) : BitVec 4 := b0.extractLsb' 4 4

/-- The regX field of byte 0, `b0[3:2]` (R51, R52). -/
def rxField (b0 : Byte) : Reg := Reg.ofBits (b0.extractLsb' 2 2)

/-- The regY field of byte 0, `b0[1:0]` (R51, R52). -/
def ryField (b0 : Byte) : Reg := Reg.ofBits (b0.extractLsb' 0 2)

/-- The operand, `b2 * 256 + b3` (R34, R52). -/
def immField (b2 b3 : Byte) : Word := b2 ++ b3

/-- The instruction an opcode number and the three fields stand for: R55's table, all 16 numbers defined. The last case is
15 alone, since `op` has 4 bits. -/
def Instr.ofFields (op : BitVec 4) (rx ry : Reg) (imm : Word) : Instr :=
  match op.toNat with
  | 0 => .mov rx ry imm
  | 1 => .add rx ry imm
  | 2 => .sub rx ry imm
  | 3 => .mul rx ry imm
  | 4 => .div rx ry imm
  | 5 => .load rx ry imm
  | 6 => .store rx ry imm
  | 7 => .jmp rx ry imm
  | 8 => .jeq rx ry imm
  | 9 => .jne rx ry imm
  | 10 => .call rx ry imm
  | 11 => .ret rx ry imm
  | 12 => .push rx ry imm
  | 13 => .pop rx ry imm
  | 14 => .int rx ry imm
  | _ => .extended rx ry imm

/-- `Decode(b0, b1, b2, b3)` (R52): a pure, total function; `b1` is not read (R56). -/
def decode (b0 _b1 b2 b3 : Byte) : Instr :=
  Instr.ofFields (opField b0) (rxField b0) (ryField b0) (immField b2 b3)

/-- Why a byte sequence is not decoded. -/
inductive DecodeReject where
  /-- Fewer than the four bytes of an instruction (R50); safe: a fetch always delivers four. -/
  | tooShort
deriving DecidableEq, Repr

/-- Decode the first instruction of a byte sequence and give the rest ("advance cursor by 4", R50). -/
def decodeBytes : List Byte → Except DecodeReject (Instr × List Byte)
  | b0 :: b1 :: b2 :: b3 :: rest => .ok (decode b0 b1 b2 b3, rest)
  | _ => .error .tooShort

/-- The codec's `decode(byte) -> (opcode, regX, regY)` (R52, R53), as numbers. -/
def decodeByte0 (b0 : Byte) : Nat × Nat × Nat :=
  ((opField b0).toNat, (rxField b0).number, (ryField b0).number)

/-- The codec's `encode(opcode, regX, regY) -> byte`, which masks out-of-range inputs (R53). -/
def encodeByte0 (opcode regX regY : Nat) : Byte :=
  BitVec.ofNat 8 (((opcode &&& 0xF) <<< 4) ||| ((regX &&& 0x3) <<< 2) ||| (regY &&& 0x3))

/-- The opcode number of an instruction (R55; D1). -/
def Instr.opcode : Instr → Nat
  | .mov _ _ _ => 0
  | .add _ _ _ => 1
  | .sub _ _ _ => 2
  | .mul _ _ _ => 3
  | .div _ _ _ => 4
  | .load _ _ _ => 5
  | .store _ _ _ => 6
  | .jmp _ _ _ => 7
  | .jeq _ _ _ => 8
  | .jne _ _ _ => 9
  | .call _ _ _ => 10
  | .ret _ _ _ => 11
  | .push _ _ _ => 12
  | .pop _ _ _ => 13
  | .int _ _ _ => 14
  | .extended _ _ _ => 15

/-- The four codec fields of an instruction as numbers (R53). -/
def Instr.fields (i : Instr) : Fields :=
  { op := i.opcode, rx := i.rx.number, ry := i.ry.number, imm := i.imm.toNat }

/-- The four bytes of an instruction, lowest address first: `encode(op, rx, ry)`, `0x00`, `imm[15:8]`, `imm[7:0]` (R53). -/
def encode (i : Instr) : List Byte :=
  [encodeByte0 i.opcode i.rx.number i.ry.number, 0#8, i.imm.extractLsb' 8 8, i.imm.extractLsb' 0 8]

/-- Byte `k` (0 to 3, in ascending address order) of the instruction word `W = b0 ++ b1 ++ b2 ++ b3` (R6, R51). -/
def wordByte (w : BitVec 32) (k : Nat) : Byte := w.extractLsb' (8 * (3 - k)) 8

/-- The instruction word that the table's bit numbers `w` of an `nbits`-bit row stand for: one 32-bit word, `b0` its most
significant byte (R6, R51); bits at or above `nbits` are 0 (notes/assumptions/16.md). -/
def tableWord (nbits w : Nat) : BitVec 32 := BitVec.ofNat 32 (w % 2 ^ nbits)

/-- Decode an instruction word `W` laid out as its four bytes in address order (R6, R51, R52). -/
def decodeWord (w : BitVec 32) : Instr := decode (wordByte w 0) (wordByte w 1) (wordByte w 2) (wordByte w 3)

/-- What the decoder reads from a row's bits as spec/opcode_table.json numbers them (bit 31 is `b0[7]`). -/
def decodeTableWord (nbits w : Nat) : Option Instr := some (decodeWord (tableWord nbits w))

end Sys2Proof
end

