-- ==== Sys2Proof/Machine/Bits.lean ====
section
/-! DEFINITION. The width conversions of spec 00_scope.md R6 and the byte order of a 16-bit value in memory (R34). -/

namespace Sys2Proof.Machine

/-- The value a 16-bit register, `pc` or `sp` stores for a mathematical integer: `v mod 65536` (R6, R11, R14). -/
def narrow (v : Int) : Word := BitVec.ofInt 16 v

/-- `sext_16(v)`: values at or above 0x8000 are negative (R6). -/
def sext16 (v : Word) : Int := if v.toNat < 0x8000 then (v.toNat : Int) else (v.toNat : Int) - 65536

/-- `zext_16(b)`: the 16-bit value of the same magnitude (R6). -/
def zext16 (b : Byte) : Word := b.setWidth 16

/-- `v[15:8]`, the byte at the lower address (R32, R34). -/
def highByte (v : Word) : Byte := v.extractLsb' 8 8

/-- `v[7:0]`, the byte at the higher address (R32, R34). -/
def lowByte (v : Word) : Byte := v.extractLsb' 0 8

/-- `high ++ low` (R6, R31). -/
def joinBytes (high low : Byte) : Word := high ++ low

end Sys2Proof.Machine
end

