-- ==== Sys2Proof/Machine/Flags.lean ====
section
/-! DEFINITION. The ALU (spec 50_blocks_and_interfaces.md R138, exact results 41_mov_alu.md R90). The machine has no
condition codes and no carry, zero, sign or overflow flag (10_state.md R18), so there is no flag computation; the ALU's
only status outputs are `eq` and the zero-divisor indication, each used by the same instruction. -/

namespace Sys2Proof.Machine

/-- `(a + b) mod 65536` (R86, R90). -/
def aluAdd (a b : Word) : Word := narrow ((a.toNat : Int) + (b.toNat : Int))

/-- `(a - b) mod 65536` (R87, R90). -/
def aluSub (a b : Word) : Word := narrow ((a.toNat : Int) - (b.toNat : Int))

/-- `(a * b) mod 65536` (R88, R90). -/
def aluMul (a b : Word) : Word := narrow ((a.toNat : Int) * (b.toNat : Int))

/-- `floor(a / b)` of the unsigned values, for `b != 0` (R89, R90). -/
def aluDiv (a b : Word) : Word := narrow ((a.toNat / b.toNat : Nat) : Int)

/-- The ALU's zero-divisor indication, which suppresses DIV's register write (R89, R138). -/
def aluZeroDivisor (b : Word) : Bool := b.toNat == 0

/-- The ALU's output `eq`: equality of the two 16-bit values (R101, R102, R138). -/
def aluEq (a b : Word) : Bool := a == b

end Sys2Proof.Machine
end

