-- ==== Sys2Proof/Config.lean ====
section
/-! DEFINITION. What an implementation or the environment fixes: the open parameter `PROGRAM_BASE` and the free answer of
the input port (spec 00_scope.md R5, 50_blocks_and_interfaces.md R135). -/

namespace Sys2Proof

/-- A value of the parameter `PROGRAM_BASE` (R5, D14): the default load and start address, 0 to 4092. It is OPEN and a
constant of the instance (R28), so `State.resetAt`, `hostMove` and everything over runs take it as an argument. -/
abbrev ProgramBase := Fin 4093

/-- The parameter as the address it is. -/
def ProgramBase.word (base : ProgramBase) : Word := BitVec.ofNat 16 base.val

/-- The instance `State.reset` is of. DESIGN CHOICE, unsafe (notes/assumptions/2.md): 0, the value the spec's examples use.
Only `State.reset`, which takes no argument, reads it. -/
def Config.programBase : ProgramBase := 0

/-- FREE VALUE (R118, R135, U9; notes/assumptions/5.md): the answer of the input port to the `n`-th poll, `some b` or `none`,
when the state's list of coming answers is empty. Nothing constrains it. -/
opaque Config.tryReadByte : Nat → Option Byte

end Sys2Proof
end

