-- ==== Sys2Proof/Machine/State.lean ====
section
/-! DEFINITION. The state of the machine as plain data: everything spec 10_state.md gives it (R10 to R25), its reset values
(R27, R170), and the environment's data a deterministic step needs (R28). -/

namespace Sys2Proof.Machine

/-- The register file (R10): four 16-bit registers, none hard-wired. -/
structure RegFile where
  r0 : Word
  r1 : Word
  r2 : Word
  r3 : Word
deriving DecidableEq, Repr

/-- The memory `M[0..4095]` (R19, R30) as the list of its nonzero bytes; `Memory.wf` is its canonical form. -/
abbrev Memory := List Host.Cell

/-- What an unlisted address reads as: the reset contents, 0 (R27, D13). -/
def Memory.resetByte : Byte := 0#8

/-- The four execution errors (R24, R145). -/
inductive ExecError where
  /-- `UnknownInterrupt(code)`: INT with an operand of 4 or more (R121, R146). -/
  | unknownInterrupt (code : Word)
  /-- `RunawayExecution`: the second consecutive fetch of `MOV R0, #0` (R74, R147). -/
  | runawayExecution
  /-- `InstructionLimitExceeded`: the count reached the host's limit (R77, R148). -/
  | instructionLimitExceeded
  /-- `AddressOutOfRange(addr)`: an access with a byte above 4095; `addr` is its first address (R47, R149). -/
  | addressOutOfRange (addr : Word)
deriving DecidableEq, Repr

/-- Why a run ended without an error (R25). -/
inductive HaltCause where
  /-- INT 0 (R116). -/
  | intHalt
  /-- The end-of-step test found `pc >= 4096` (R78). -/
  | endOfMemory
  /-- The host's stop request (R132). -/
  | hostStop
deriving DecidableEq, Repr

/-- One event of the output trace (R28, R134, R136). -/
inductive Event where
  /-- `Output(v)`, from INT 1 (R117). -/
  | output (v : Word)
  /-- `WriteByte(b)`, from INT 3 (R119). -/
  | writeByte (b : Byte)
deriving DecidableEq, Repr

/-- The state. The fields down to `haltCause` are the spec's complete state (10_state.md); the last three are the
environment's data (R28), the model's own fields (notes/assumptions/5.md and 6.md). -/
structure State where
  /-- `x[0..3]` (R10, R11). -/
  regs : RegFile
  /-- The program counter (R13, R14). -/
  pc : Word
  /-- The stack pointer (R16, R17). -/
  sp : Word
  /-- `M` (R19). -/
  mem : Memory
  /-- The running flag (R20). -/
  running : Bool
  /-- The runaway guard's counter, 0 to 2 (R21). -/
  nopCount : Nat
  /-- The executed-instruction count (R22). -/
  execCount : Nat
  /-- The instruction-count limit (R23). -/
  limit : Option Nat
  /-- The latched execution error (R24). -/
  error : Option ExecError
  /-- The latched reason of a halt without error (R25). -/
  haltCause : Option HaltCause
  /-- The output trace, oldest event first (R28, R134, R136). -/
  output : List Event
  /-- The answers the input port will give to the coming polls, next first (R28, R135). -/
  input : List (Option Byte)
  /-- How many polls were made: only the index of the free answer once `input` is empty (R135). -/
  pollCount : Nat
deriving DecidableEq, Repr

/-- Where the model answers a host operation with a fault. No instruction and no step faults: the spec describes what each of
its execution errors does to the state, and the model takes it (R150; notes/assumptions/4.md). -/
inductive Fault where
  /-- Raised by the host operations load, run, setInstructionLimit and clearInstructionLimit when `running = 1`: they are
  defined only while `running = 0` and a model gives the host no such move (R45, R129 to R131). Safe: the model stops
  where the spec gives no effect. -/
  | hostOpWhileRunning
deriving DecidableEq, Repr

/-- Where the model answers with a refusal. -/
inductive Refusal where
  /-- An instruction without a meaning, by its mnemonic. Raised by no arm of `exec`: every row has its meaning. Safe. -/
  | notModelled (mnemonic : String)
  /-- Raised by the host's load of `length` bytes at `address` when they would run past the end of memory: "refused whole,
  changing nothing" (R129, D23). Safe. -/
  | loadPastEnd (address length : Nat)
deriving DecidableEq, Repr

/-- The machine right after reset of the instance with `PROGRAM_BASE` at `base` (R27, R170; R5: "a parameter the model
takes as an argument"). -/
def State.resetAt (base : ProgramBase) : State :=
  { regs := { r0 := 0#16, r1 := 0#16, r2 := 0#16, r3 := 0#16 }
    pc := base.word
    sp := 4095#16
    mem := []
    running := false
    nopCount := 0
    execCount := 0
    limit := none
    error := none
    haltCause := none
    output := []
    input := []
    pollCount := 0 }

/-- The machine right after reset (R27, R170), of the instance `Config.programBase` (notes/assumptions/2.md). -/
def State.reset : State := State.resetAt Config.programBase

end Sys2Proof.Machine
end

