-- ==== Sys2Proof/Machine/Ops.lean ====
section
/-! DEFINITION. The named operations over registers, memory and stack, and raising an execution error (spec 10_state.md,
20_memory.md, 60_exceptions.md R150). -/

namespace Sys2Proof.Machine

/-! ### Registers (R10, R11, R127) -/

/-- `x[r]` of a register file (R10). -/
def RegFile.get (f : RegFile) : Reg → Word
  | .r0 => f.r0
  | .r1 => f.r1
  | .r2 => f.r2
  | .r3 => f.r3

/-- `x[r] <- v` on a register file (R11). -/
def RegFile.set (f : RegFile) (r : Reg) (v : Word) : RegFile :=
  match r with
  | .r0 => { f with r0 := v }
  | .r1 => { f with r1 := v }
  | .r2 => { f with r2 := v }
  | .r3 => { f with r3 := v }

/-- `x[r]` (R10). -/
def State.reg (s : State) (r : Reg) : Word := s.regs.get r

/-- `x[r] <- v`, `v` already reduced to 16 bits (R11). -/
def State.setReg (s : State) (r : Reg) (v : Word) : State := { s with regs := s.regs.set r v }

/-- `pc <- t` (R14). -/
def State.setPc (s : State) (t : Word) : State := { s with pc := t }

/-- The memory replaced. -/
def State.setMem (s : State) (m : Memory) : State := { s with mem := m }

/-- `sp <- t` (R17). -/
def State.setSp (s : State) (t : Word) : State := { s with sp := t }

/-- `A + 4`, the address of the following instruction, as a 16-bit value (R14, R15). -/
def State.nextPc (s : State) : Word := narrow ((s.pc.toNat : Int) + 4)

/-- The default `pc <- A + 4` (R15, R75). -/
def State.advance (s : State) : State := s.setPc s.nextPc

/-! ### Memory: one byte (R19, R30) -/

/-- The number of memory cells (R5 `MEMORY_SIZE`). -/
def memorySize : Nat := 4096

/-- The canonical form: addresses strictly rising and inside memory, no entry equal to what an unlisted address reads as. -/
abbrev Memory.wf (m : Memory) : Prop :=
  m.Pairwise (fun c d => c.1 < d.1) ∧ ∀ c ∈ m, c.1 < memorySize ∧ c.2 ≠ Memory.resetByte

/-- `M[a]` (R19); an unlisted address holds the reset byte (R27). -/
def Memory.read : Memory → Nat → Byte
  | [], _ => Memory.resetByte
  | c :: m, a => if c.1 = a then c.2 else Memory.read m a

/-- The memory without any entry for `a`. -/
def Memory.remove : Memory → Nat → Memory
  | [], _ => []
  | c :: m, a => if c.1 = a then Memory.remove m a else c :: Memory.remove m a

/-- The memory with an entry put before the first entry of a higher address. -/
def Memory.place : Memory → Nat → Byte → Memory
  | [], a, b => [(a, b)]
  | c :: m, a, b => if a < c.1 then (a, b) :: c :: m else c :: Memory.place m a b

/-- `M[a] <- b` (R32), keeping the canonical form: writing the reset byte removes the entry. -/
def Memory.write (m : Memory) (a : Nat) (b : Byte) : Memory :=
  if b = Memory.resetByte then m.remove a else (m.remove a).place a b

/-- Consecutive bytes written from address `a` upward (the host's load, R129). -/
def Memory.writeBytes (m : Memory) (a : Nat) : List Byte → Memory
  | [] => m
  | b :: bs => Memory.writeBytes (m.write a b) (a + 1) bs

/-! ### Memory: the access primitives (R31 to R33) -/

/-- The range test of MemRead and MemWrite, on the mathematical sum: no byte of the access lies above 4095 (R31, R32, R128). -/
def inRange (addr : Word) (n : Nat) : Bool := addr.toNat + n - 1 ≤ 4095

/-- `MemRead(addr, 2)`: big-endian, or `AddressOutOfRange(addr)` (R31). -/
def memRead2 (m : Memory) (addr : Word) : Except ExecError Word :=
  if inRange addr 2 then .ok (joinBytes (m.read addr.toNat) (m.read (addr.toNat + 1)))
  else .error (.addressOutOfRange addr)

/-- `MemRead(addr, 4)` as its four bytes in ascending address order (R31, R33). -/
def memRead4 (m : Memory) (addr : Word) : Except ExecError (Byte × Byte × Byte × Byte) :=
  if inRange addr 4 then
    .ok (m.read addr.toNat, m.read (addr.toNat + 1), m.read (addr.toNat + 2), m.read (addr.toNat + 3))
  else .error (.addressOutOfRange addr)

/-- `MemWrite(addr, 2, v)`: both bytes, high byte first, or neither and `AddressOutOfRange(addr)` (R32). -/
def memWrite2 (m : Memory) (addr v : Word) : Except ExecError Memory :=
  if inRange addr 2 then .ok ((m.write addr.toNat (highByte v)).write (addr.toNat + 1) (lowByte v))
  else .error (.addressOutOfRange addr)

/-! ### The stack (R36, R37) -/

/-- The address a push writes to: `(sp - 2) mod 65536` (R36, R38). -/
def State.pushAddr (s : State) : Word := narrow ((s.sp.toNat : Int) - 2)

/-- `Push(v)` (R36): the write first, then `sp`; a refused write changes nothing. -/
def push (s : State) (v : Word) : Except ExecError State :=
  match memWrite2 s.mem s.pushAddr v with
  | .ok m => .ok ((s.setMem m).setSp s.pushAddr)
  | .error e => .error e

/-- `Pop()` (R37): the popped word and the state with `sp` moved up by 2; a refused read changes nothing. -/
def pop (s : State) : Except ExecError (Word × State) :=
  match memRead2 s.mem s.sp with
  | .ok v => .ok (v, s.setSp (narrow ((s.sp.toNat : Int) + 2)))
  | .error e => .error e

/-! ### Errors, halts, events, polls -/

/-- `raise E(info)` (R150): the machine stops with the error latched; nothing else changes. This is the machine's only
exception entry: no register is saved, no control goes anywhere, and there is no return from it (R156); the host's `run`
clears the latch (R130). -/
def raise (s : State) (e : ExecError) : State := { s with running := false, error := some e }

/-- Stop without an error and latch the cause (R25). -/
def halt (s : State) (c : HaltCause) : State := { s with running := false, haltCause := some c }

/-- What an instruction answers after an operation that may raise: the state as it was with the error latched (R75, R150:
nothing the instruction would have written is written), or what it does with the operation's result. -/
def orRaise {α : Type} (s : State) (r : Except ExecError α) (k : α → State) : Host.Outcome State Fault Refusal :=
  match r with
  | .ok a => .next (k a)
  | .error e => .next (raise s e)

/-- `emit e`: append an event to the output trace (R28, R134, R136). -/
def State.emit (s : State) (e : Event) : State := { s with output := s.output ++ [e] }

/-- The answer of the environment to the poll being made (R118, R135): the next listed answer, or a free value when none is
listed (notes/assumptions/5.md). -/
def State.pollAnswer (s : State) : Option Byte :=
  match s.input with
  | a :: _ => a
  | [] => Config.tryReadByte s.pollCount

/-- The environment after a poll: the answer is consumed (R118, R135). -/
def State.consumePoll (s : State) : State := { s with input := s.input.tail, pollCount := s.pollCount + 1 }

end Sys2Proof.Machine
end

