-- ==== Sys2Proof/Machine/Operands.lean ====
section
/-! DEFINITION. How an instruction reads its operand fields (spec 30_encoding.md R54): the MOV source and the
relative target. The data address of LOAD and STORE, the target of CALL and the interrupt number are the operand itself. -/

namespace Sys2Proof.Machine

/-- MOV's source (R85): the field `ry = 0` selects the immediate, any other value the register's contents. -/
def movSource (s : State) (ry : Reg) (imm : Word) : Word := if ry = .r0 then imm else s.reg ry

/-- The relative target `(A + 4 + sext_16(imm)) mod 65536` (R14, R100). -/
def relTarget (a imm : Word) : Word := narrow ((a.toNat : Int) + 4 + sext16 imm)

/-- The offset the assembler emits for a target label: `target - (instructionAddress + 4)` modulo 65536 (R64). The hardware's
relative target is its inverse. -/
def relOffset (a target : Word) : Word := narrow ((target.toNat : Int) - ((a.toNat : Int) + 4))

/-- The next `pc` of a conditional transfer (R101, R102). -/
def branchPc (s : State) (taken : Bool) (imm : Word) : Word := if taken then relTarget s.pc imm else s.nextPc

end Sys2Proof.Machine
end

