-- ==== Sys2Proof/Machine/Control.lean ====
section
/-! DEFINITION. Control transfer (spec 43_control_transfer.md R100 to R104). No target is checked here (R105). -/

namespace Sys2Proof.Machine

/-- JMP (R100). -/
def execJmp (_rx _ry : Reg) (imm : Word) (s : State) : Host.Outcome State Fault Refusal :=
  .next (s.setPc (relTarget s.pc imm))

/-- JEQ (R101): compares the registers' contents. -/
def execJeq (rx ry : Reg) (imm : Word) (s : State) : Host.Outcome State Fault Refusal :=
  .next (s.setPc (branchPc s (aluEq (s.reg rx) (s.reg ry)) imm))

/-- JNE (R102). -/
def execJne (rx ry : Reg) (imm : Word) (s : State) : Host.Outcome State Fault Refusal :=
  .next (s.setPc (branchPc s (!aluEq (s.reg rx) (s.reg ry)) imm))

/-- CALL (R103): pushes `A + 4`, then the absolute target (C6). -/
def execCall (_rx _ry : Reg) (imm : Word) (s : State) : Host.Outcome State Fault Refusal :=
  orRaise s (push s s.nextPc) fun t => t.setPc imm

/-- RET (R104). -/
def execRet (_rx _ry : Reg) (_imm : Word) (s : State) : Host.Outcome State Fault Refusal :=
  orRaise s (pop s) fun p => p.2.setPc p.1

end Sys2Proof.Machine
end

