-- ==== Sys2Proof/Machine/LoadStore.lean ====
section
/-! DEFINITION. LOAD and STORE (spec 42_load_store.md R95, R96): the operand is the absolute, unsigned, unscaled address (R54). -/

namespace Sys2Proof.Machine

/-- LOAD (R95). -/
def execLoad (rx _ry : Reg) (imm : Word) (s : State) : Host.Outcome State Fault Refusal :=
  orRaise s (memRead2 s.mem imm) fun v => (s.setReg rx v).advance

/-- STORE (R96). -/
def execStore (rx _ry : Reg) (imm : Word) (s : State) : Host.Outcome State Fault Refusal :=
  orRaise s (memWrite2 s.mem imm (s.reg rx)) fun m => (s.setMem m).advance

end Sys2Proof.Machine
end

