-- ==== Sys2Proof/Machine/MovAlu.lean ====
section
/-! DEFINITION. MOV and the ALU instructions (spec 41_mov_alu.md R85 to R89). `s.pc` is `A`, the address of the instruction
(R70, C9). -/

namespace Sys2Proof.Machine

/-- MOV (R85). -/
def execMov (rx ry : Reg) (imm : Word) (s : State) : Host.Outcome State Fault Refusal :=
  .next (s.setReg rx (movSource s ry imm)).advance

/-- ADD (R86). -/
def execAdd (rx ry : Reg) (_imm : Word) (s : State) : Host.Outcome State Fault Refusal :=
  .next (s.setReg rx (aluAdd (s.reg rx) (s.reg ry))).advance

/-- SUB (R87). -/
def execSub (rx ry : Reg) (_imm : Word) (s : State) : Host.Outcome State Fault Refusal :=
  .next (s.setReg rx (aluSub (s.reg rx) (s.reg ry))).advance

/-- MUL (R88). -/
def execMul (rx ry : Reg) (_imm : Word) (s : State) : Host.Outcome State Fault Refusal :=
  .next (s.setReg rx (aluMul (s.reg rx) (s.reg ry))).advance

/-- DIV (R89): a zero divisor (its contents, C10) leaves the register unchanged; `pc` advances in both cases. -/
def execDiv (rx ry : Reg) (_imm : Word) (s : State) : Host.Outcome State Fault Refusal :=
  if aluZeroDivisor (s.reg ry) then .next s.advance
  else .next (s.setReg rx (aluDiv (s.reg rx) (s.reg ry))).advance

end Sys2Proof.Machine
end

