-- ==== Sys2Proof/Machine/Stack.lean ====
section
/-! DEFINITION. PUSH and POP (spec 44_stack.md R110, R111). -/

namespace Sys2Proof.Machine

/-- PUSH (R110). -/
def execPush (rx _ry : Reg) (_imm : Word) (s : State) : Host.Outcome State Fault Refusal :=
  orRaise s (push s (s.reg rx)) fun t => t.advance

/-- POP (R111). -/
def execPop (rx _ry : Reg) (_imm : Word) (s : State) : Host.Outcome State Fault Refusal :=
  orRaise s (pop s) fun p => (p.2.setReg rx p.1).advance

end Sys2Proof.Machine
end

