-- ==== Sys2Proof/Machine/System.lean ====
section
/-! DEFINITION. INT with its four services and the unknown-number error, and EXTENDED (spec 45_system.md R115 to R121). -/

namespace Sys2Proof.Machine

/-- Service 0, halt (R116). -/
def service0 (s : State) : State := halt s .intHalt

/-- Service 1, debug output of R0's 16-bit value (R117). -/
def service1 (s : State) : State := s.emit (.output (s.reg .r0))

/-- What a poll's answer leaves in R0: the byte zero-extended, or 0 for no byte (R118). -/
def pollValue (answer : Option Byte) : Word :=
  match answer with
  | some b => zext16 b
  | none => 0#16

/-- Service 2, poll input: the answer's value to R0 (R118). The yield has no effect on any state. -/
def service2 (s : State) : State := s.consumePoll.setReg .r0 (pollValue s.pollAnswer)

/-- Service 3, send R0's low byte (R119). -/
def service3 (s : State) : State := s.emit (.writeByte (lowByte (s.reg .r0)))

/-- INT (R115): a selection on all 16 bits of `imm`; `pc` advances after the four services only. -/
def execInt (_rx _ry : Reg) (imm : Word) (s : State) : Host.Outcome State Fault Refusal :=
  match imm.toNat with
  | 0 => .next (service0 s).advance
  | 1 => .next (service1 s).advance
  | 2 => .next (service2 s).advance
  | 3 => .next (service3 s).advance
  | _ => .next (raise s (.unknownInterrupt imm))

/-- EXTENDED (R120): a no-op that advances `pc`. -/
def execExtended (_rx _ry : Reg) (_imm : Word) (s : State) : Host.Outcome State Fault Refusal :=
  .next s.advance

end Sys2Proof.Machine
end

