-- ==== Sys2Proof/Machine/Dispatch.lean ====
section
/-! DEFINITION. Dispatch: `Execute(op, rx, ry, imm, A)` of spec 40_execution_cycle.md R75, one arm per instruction. -/

namespace Sys2Proof.Machine

def exec (i : Instr) (s : State) : Host.Outcome State Fault Refusal :=
  match i with
  | .mov rx ry imm => Sys2Proof.Machine.execMov rx ry imm s
  | .add rx ry imm => Sys2Proof.Machine.execAdd rx ry imm s
  | .sub rx ry imm => Sys2Proof.Machine.execSub rx ry imm s
  | .mul rx ry imm => Sys2Proof.Machine.execMul rx ry imm s
  | .div rx ry imm => Sys2Proof.Machine.execDiv rx ry imm s
  | .load rx ry imm => Sys2Proof.Machine.execLoad rx ry imm s
  | .store rx ry imm => Sys2Proof.Machine.execStore rx ry imm s
  | .jmp rx ry imm => Sys2Proof.Machine.execJmp rx ry imm s
  | .jeq rx ry imm => Sys2Proof.Machine.execJeq rx ry imm s
  | .jne rx ry imm => Sys2Proof.Machine.execJne rx ry imm s
  | .call rx ry imm => Sys2Proof.Machine.execCall rx ry imm s
  | .ret rx ry imm => Sys2Proof.Machine.execRet rx ry imm s
  | .push rx ry imm => Sys2Proof.Machine.execPush rx ry imm s
  | .pop rx ry imm => Sys2Proof.Machine.execPop rx ry imm s
  | .int rx ry imm => Sys2Proof.Machine.execInt rx ry imm s
  | .extended rx ry imm => Sys2Proof.Machine.execExtended rx ry imm s

end Sys2Proof.Machine
end

