-- ==== Sys2Proof/Machine/Cycle.lean ====
section
/-! DEFINITION. The step and its parts around the instruction (spec 40_execution_cycle.md R70 to R78): fetch and decode, the
runaway guard, the end-of-step checks; and the host's placing of one instruction where the next fetch reads it. -/

namespace Sys2Proof.Machine

/-- Fetch `MemRead(A, 4)` at `A = pc` and decode (R70 step a, R71, R72). -/
def fetch (s : State) : Except ExecError Instr :=
  match memRead4 s.mem s.pc with
  | .ok (b0, b1, b2, b3) => .ok (decode b0 b1 b2 b3)
  | .error e => .error e

/-- The instruction the runaway guard counts: `(op, rx, ry, imm) = (0, 0, 0, 0)`, `MOV R0, #0` (R74). -/
def isRunawayPattern (i : Instr) : Bool := i == .mov .r0 .r0 0#16

/-- The guard's counter after the fetch of `i` (R70 step c, R74). -/
def guardCount (i : Instr) (s : State) : State :=
  { s with nopCount := if isRunawayPattern i then s.nopCount + 1 else 0 }

/-- The guard raises: the instruction is the counted one and the count reaches `RUNAWAY_THRESHOLD`, 2 (R5, R70, R74). -/
def guardRaises (i : Instr) (s : State) : Bool := isRunawayPattern i && 2 ≤ (guardCount i s).nopCount

/-- The count of completed instructions is increased (R70 step e, R77). -/
def countInstr (s : State) : State := { s with execCount := s.execCount + 1 }

/-- `limit != None and exec_count >= limit` (R77). -/
def limitReached (s : State) : Bool :=
  match s.limit with
  | some n => n ≤ s.execCount
  | none => false

/-- The end-of-memory test: `running = 1 and pc >= 4096` (R78). -/
def pastEnd (s : State) : Bool := s.running && memorySize ≤ s.pc.toNat

/-- The checks after the count: the limit first, then the end of memory (R70 steps e and f, R77, R78). -/
def checks (s : State) : State :=
  if limitReached s then raise s .instructionLimitExceeded
  else if pastEnd s then halt s .endOfMemory
  else s

/-- What follows `Execute`: nothing when the instruction raised (its error is latched; R70: raise ends the step at once),
else the count and the checks (R70 steps e and f; notes/assumptions/13.md). -/
def endOfStep (s : State) : State := if s.error.isSome then s else checks (countInstr s)

/-- The end of a step on the outcome of `exec`. -/
def finish : Host.Outcome State Fault Refusal → Host.Outcome State Fault Refusal
  | .next s => .next (endOfStep s)
  | .fault f => .fault f
  | .refused r => .refused r

/-- One step (R70). A stopped machine takes no step and retains all its state (R70, R165; notes/assumptions/3.md). A raise
before dispatch ends the step with nothing but the latch, and the guard's count, changed (R150). -/
def cycle (s : State) : Host.Outcome State Fault Refusal :=
  if s.running then
    match fetch s with
    | .error e => .next (raise s e)
    | .ok i =>
      if guardRaises i s then .next (raise (guardCount i s) .runawayExecution)
      else finish (exec i (guardCount i s))
  else .next s

/-- `run(start)` on a stopped machine, its effects (R130). -/
def startRun (s : State) (start : Word) : State :=
  { s with pc := start, nopCount := 0, execCount := 0, error := none, haltCause := none, running := true }

/-- Where an instruction is placed for the next fetch: at `pc` when four bytes fit there, else at 0. -/
def placeAddr (s : State) : Word := if inRange s.pc 4 then s.pc else 0#16

/-- The instruction word `w` stored at the place of the next fetch, and the machine running from there: a running machine
keeps everything else, a stopped one is started as the host's `run` starts it (R130; notes/assumptions/11.md). -/
def placeInstr (s : State) (w : BitVec 32) : State :=
  let t := s.setMem (s.mem.writeBytes (placeAddr s).toNat [wordByte w 0, wordByte w 1, wordByte w 2, wordByte w 3])
  if s.running then t.setPc (placeAddr s) else startRun t (placeAddr s)

end Sys2Proof.Machine
end

