-- ==== Sys2Proof/Machine/Step.lean ====
section
/-! DEFINITION. The step (spec 40_execution_cycle.md R70). -/

namespace Sys2Proof.Machine

/-- One step (R70): `cycle`. -/
def step (s : State) : Host.Outcome State Fault Refusal := cycle s

/-- The state with the table row's instruction `w` placed where `step` fetches its next instruction
(notes/assumptions/11.md and 16.md). -/
def State.withFetchWord (s : State) (nbits w : Nat) : State := placeInstr s (tableWord nbits w)

end Sys2Proof.Machine
end

