-- ==== Sys2Proof/Machine/Trace.lean ====
section
/-! DEFINITION. The optional trace sink (spec 40_execution_cycle.md R73, 50_blocks_and_interfaces.md R141): the record one
step presents. It reads state and changes none, so no field of `State` and no part of `step` depends on it. -/

namespace Sys2Proof.Machine

/-- "mnemonic, operands, register snapshot" (R73). -/
structure TraceRecord where
  mnemonic : String
  rx : Reg
  ry : Reg
  imm : Word
  regs : RegFile
deriving DecidableEq, Repr

/-- The record the step from `s` presents: produced after decode and before the guard, so there is one for the instruction on
which `RunawayExecution` is raised, and none for a stopped machine or a refused fetch (R73). -/
def traceRecord (s : State) : Option TraceRecord :=
  if s.running then
    match fetch s with
    | .ok i => some { mnemonic := i.mnemonic, rx := i.rx, ry := i.ry, imm := i.imm, regs := s.regs }
    | .error _ => none
  else none

end Sys2Proof.Machine
end

