-- ==== Sys2Proof/Machine/HostOps.lean ====
section
/-! DEFINITION. The host's operations, applied at instruction boundaries (spec 50_blocks_and_interfaces.md R129 to R133,
70_reset_and_hazards.md R170 to R172; notes/assumptions/8.md). -/

namespace Sys2Proof.Machine

/-- What the host may ask for at an instruction boundary. -/
inductive HostOp where
  /-- `load(bytes, address)`; no address is the instance's `PROGRAM_BASE` (R129). -/
  | load (bytes : List Byte) (address : Option Nat := none)
  /-- `run(start)`; no start is the instance's `PROGRAM_BASE` (R130). -/
  | run (start : Option Word := none)
  /-- `setInstructionLimit(n)` (R131). -/
  | setInstructionLimit (n : Nat)
  /-- `clearInstructionLimit()` (R131). -/
  | clearInstructionLimit
  /-- The stop request (R132). -/
  | stop
  /-- The explicit reset (R133, R170). -/
  | reset
deriving DecidableEq, Repr

/-- An operation that is defined only while `running = 0` (R45, R129 to R131). -/
def whenStopped (s : State) (o : Host.Outcome State Fault Refusal) : Host.Outcome State Fault Refusal :=
  if s.running then .fault .hostOpWhileRunning else o

/-- `load(bytes, address)` (R129): the bytes, and the two counters to 0; refused whole past the end of memory. -/
def hostLoad (bytes : List Byte) (address : Nat) (s : State) : Host.Outcome State Fault Refusal :=
  whenStopped s
    (if address + bytes.length ≤ memorySize then
      .next { s with mem := s.mem.writeBytes address bytes, nopCount := 0, execCount := 0 }
    else .refused (.loadPastEnd address bytes.length))

/-- `run(start)` (R130). -/
def hostRun (start : Word) (s : State) : Host.Outcome State Fault Refusal :=
  whenStopped s (.next (startRun s start))

/-- `setInstructionLimit(n)` (R131). -/
def hostSetLimit (n : Nat) (s : State) : Host.Outcome State Fault Refusal :=
  whenStopped s (.next { s with limit := some n })

/-- `clearInstructionLimit()` (R131). -/
def hostClearLimit (s : State) : Host.Outcome State Fault Refusal :=
  whenStopped s (.next { s with limit := none })

/-- The stop request (R132): no further effect when the machine has stopped already. -/
def hostStop (s : State) : Host.Outcome State Fault Refusal :=
  .next (if s.running then halt s .hostStop else s)

/-- The explicit reset of the instance `base` (R170): every piece of machine state at its reset value; the environment's trace, answers and poll
count are not the machine's and are kept. -/
def hostReset (base : ProgramBase) (s : State) : Host.Outcome State Fault Refusal :=
  .next { State.resetAt base with output := s.output, input := s.input, pollCount := s.pollCount }

/-- The number of an error on a hardware error port (R145, D30); 0 is no error. -/
def errorCode : Option ExecError → Nat
  | none => 0
  | some (.unknownInterrupt _) => 1
  | some .runawayExecution => 2
  | some .instructionLimitExceeded => 3
  | some (.addressOutOfRange _) => 4

/-- One host operation at an instruction boundary of the instance `base`, whose `PROGRAM_BASE` is the default address and
start (R5, R129 to R133). -/
def hostMove (base : ProgramBase) : HostOp → State → Host.Outcome State Fault Refusal
  | .load bytes address, s => hostLoad bytes (address.getD base.val) s
  | .run start, s => hostRun (start.getD base.word) s
  | .setInstructionLimit n, s => hostSetLimit n s
  | .clearInstructionLimit, s => hostClearLimit s
  | .stop, s => hostStop s
  | .reset, s => hostReset base s

end Sys2Proof.Machine
end

