-- ==== Sys2Proof/Safety.lean ====
section
/-! DEFINITION. What claims about runs speak of: the ends of a run (spec 40_execution_cycle.md R79), what may happen between
two boundaries, the states that can be reached from reset, and the invariant they satisfy. -/

namespace Sys2Proof.Machine

/-- How a run has ended (R79). -/
inductive RunEnd where
  /-- Without an error, for the cause latched (R25). -/
  | halted (c : HaltCause)
  /-- With an error (R24); a limit error may carry the halt cause of INT 0 beside it (R79). -/
  | failed (e : ExecError)
deriving DecidableEq, Repr

/-- The end that `error` and `halt_cause` tell (R79): none while the machine runs, or before it ever ran. -/
def runEnd (s : State) : Option RunEnd :=
  if s.running then none
  else match s.error, s.haltCause with
    | some e, _ => some (.failed e)
    | none, some c => some (.halted c)
    | none, none => none

/-- The run ended as its program intended: by INT 0, with no error (R105: ask for `halt_cause = IntHalt`). -/
def EndsAsIntended (s : State) : Prop := runEnd s = some (.halted .intHalt)

/-- What can happen, in the instance `base`, from one instruction boundary to the next: the machine takes a step, or, between
steps, the host does one of its operations or the environment settles what the coming polls will get (R28, R76, R135). -/
inductive Move (base : ProgramBase) : State → State → Prop where
  | machine (s t : State) (hrun : s.running = true) (hstep : step s = .next t) : Move base s t
  | host (s t : State) (op : HostOp) (hop : hostMove base op s = .next t) : Move base s t
  | answers (s : State) (l : List (Option Byte)) : Move base s { s with input := l }

/-- The states that the instance `base` can reach from reset (R170). -/
inductive Reachable (base : ProgramBase) : State → Prop where
  | reset : Reachable base (State.resetAt base)
  | move (s t : State) (hs : Reachable base s) (hm : Move base s t) : Reachable base t

/-- What every reachable state satisfies. -/
structure Inv (s : State) : Prop where
  /-- The memory list is in its canonical form. -/
  memWf : s.mem.wf
  /-- "`sp` is always odd" (R17). -/
  spOdd : s.sp.toNat % 2 = 1
  /-- The stack pointer never leaves memory (R16, R17, R36, R37). -/
  spRange : s.sp.toNat ≤ 4095
  /-- `nop_count` takes the values 0, 1, 2 (R21). -/
  nopRange : s.nopCount ≤ 2
  /-- Reaching 2 raises (R21, R74). -/
  nopRunning : s.running = true → s.nopCount ≤ 1
  /-- `nop_count` is 2 only with `RunawayExecution` latched (R74, R150). -/
  nopTwo : s.nopCount = 2 → s.error = some .runawayExecution
  /-- "While `running = 1` (and therefore `error = None`)" (R24, R70). -/
  errorStops : s.running = true → s.error = none
  /-- A halt cause is latched only where `running` is cleared (R25). -/
  haltStops : s.running = true → s.haltCause = none
  /-- `UnknownInterrupt` records a code of 4 or more (R24). -/
  codeRange : ∀ c, s.error = some (.unknownInterrupt c) → 4 ≤ c.toNat
  /-- `AddressOutOfRange` records an address above the last one a fetch accepts (R31, R47). -/
  addrRange : ∀ a, s.error = some (.addressOutOfRange a) → 4093 ≤ a.toNat
  /-- Beside an aborting error no halt cause is latched; beside the limit error at most `IntHalt` (R79, R150). -/
  errorHalt : ∀ e, s.error = some e → s.haltCause = none ∨ (e = .instructionLimitExceeded ∧ s.haltCause = some .intHalt)
  /-- `EndOfMemory` is latched with `pc` at or past the end (R78, R79). -/
  endPc : s.haltCause = some .endOfMemory → memorySize ≤ s.pc.toNat
  /-- A running machine has not reached its limit, but for `limit = 0` before the first instruction (R77). -/
  underLimit : s.running = true → ∀ n, s.limit = some n → s.execCount = 0 ∨ s.execCount < n

end Sys2Proof.Machine
end

