-- ==== Sys2Proof/Certificates/Slice0/Obligations.lean ====
section
/-! DEFINITION. The statements about the machine, each `def Obligations.<Name> : Prop`, and the predicates they share.
Every result is written in the spec's own arithmetic on natural numbers and integers, not by the model's ALU. -/

open Sys2Proof Sys2Proof.Machine

/-! ### Shared predicates -/

/-- Every byte of memory reads as before. -/
def Sys2Proof.Claims.SameMem (s t : State) : Prop := ∀ a, t.mem.read a = s.mem.read a

/-- Every register reads as before. -/
def Sys2Proof.Claims.SameRegs (s t : State) : Prop := ∀ q, t.reg q = s.reg q

/-- Every register but `r` reads as before. -/
def Sys2Proof.Claims.SameRegsBut (r : Reg) (s t : State) : Prop := ∀ q, q ≠ r → t.reg q = s.reg q

/-- The guard's counter, the instruction count and the limit are as before. -/
def Sys2Proof.Claims.SameCounters (s t : State) : Prop :=
  t.nopCount = s.nopCount ∧ t.execCount = s.execCount ∧ t.limit = s.limit

/-- All sequencer state is as before: the counters, `running` and the two latches. -/
def Sys2Proof.Claims.SameSeq (s t : State) : Prop :=
  Claims.SameCounters s t ∧ t.running = s.running ∧ t.error = s.error ∧ t.haltCause = s.haltCause

/-- The output trace, the coming answers and the poll count are as before. -/
def Sys2Proof.Claims.SameEnv (s t : State) : Prop :=
  t.output = s.output ∧ t.input = s.input ∧ t.pollCount = s.pollCount

/-- The big-endian word in the bytes at `a` and `a + 1`. -/
def Sys2Proof.Claims.wordAt (s : State) (a : Nat) : Nat := (s.mem.read a).toNat * 256 + (s.mem.read (a + 1)).toNat

/-- The word `v` stands big-endian at `a`, `a + 1`, and every other byte is as before. -/
def Sys2Proof.Claims.StoredAt (s t : State) (a : Nat) (v : Nat) : Prop :=
  (t.mem.read a).toNat = v / 256 ∧ (t.mem.read (a + 1)).toNat = v % 256 ∧
    ∀ b, b ≠ a → b ≠ a + 1 → t.mem.read b = s.mem.read b

/-- The instruction completes; it writes `v` to the register `r`, moves `pc` to `A + 4`, and changes nothing else. -/
def Sys2Proof.Claims.WritesReg (i : Instr) (s : State) (r : Reg) (v : Int) : Prop :=
  ∃ t, exec i s = .next t ∧ ((t.reg r).toNat : Int) = v ∧ Claims.SameRegsBut r s t ∧ t.pc = s.pc + 4#16 ∧ t.sp = s.sp ∧
    Claims.SameMem s t ∧ Claims.SameSeq s t ∧ Claims.SameEnv s t

/-- The instruction completes; it sets `pc` to `v` and changes nothing else. -/
def Sys2Proof.Claims.SetsPc (i : Instr) (s : State) (v : Int) : Prop :=
  ∃ t, exec i s = .next t ∧ (t.pc.toNat : Int) = v ∧ Claims.SameRegs s t ∧ t.sp = s.sp ∧
    Claims.SameMem s t ∧ Claims.SameSeq s t ∧ Claims.SameEnv s t

/-- The instruction raises `e`: the machine stops with `e` latched, and everything else is as it was. -/
def Sys2Proof.Claims.Raises (i : Instr) (s : State) (e : ExecError) : Prop :=
  ∃ t, exec i s = .next t ∧ t.running = false ∧ t.error = some e ∧ t.haltCause = s.haltCause ∧ Claims.SameRegs s t ∧
    t.pc = s.pc ∧ t.sp = s.sp ∧ Claims.SameMem s t ∧ Claims.SameCounters s t ∧ Claims.SameEnv s t

/-- Any instruction word with `op` in `b0[7:4]`, `rx` in `b0[3:2]`, `ry` in `b0[1:0]`, any reserved byte and any operand bytes
decodes to `mk rx ry (b2 ++ b3)`. -/
def Sys2Proof.Claims.EncodedAs (op : BitVec 4) (mk : Reg → Reg → Word → Instr) : Prop :=
  ∀ (rx ry : Reg) (b1 b2 b3 : Byte), decode (op ++ rx.bits ++ ry.bits) b1 b2 b3 = mk rx ry (b2 ++ b3)

/-- The instruction the four bytes at `pc` decode to. -/
def Sys2Proof.Claims.instrAt (s : State) : Instr :=
  decode (s.mem.read s.pc.toNat) (s.mem.read (s.pc.toNat + 1)) (s.mem.read (s.pc.toNat + 2)) (s.mem.read (s.pc.toNat + 3))

/-- Pushing the words of a list in order, the first word first. -/
def Sys2Proof.Claims.pushAll : List Word → State → Except ExecError State
  | [], s => .ok s
  | v :: vs, s =>
    match push s v with
    | .ok t => Claims.pushAll vs t
    | .error e => .error e

/-- Popping `n` words, the first popped first. -/
def Sys2Proof.Claims.popMany : Nat → State → Except ExecError (List Word × State)
  | 0, s => .ok ([], s)
  | n + 1, s =>
    match pop s with
    | .error e => .error e
    | .ok (v, t) =>
      match Claims.popMany n t with
      | .ok (vs, u) => .ok (v :: vs, u)
      | .error e => .error e

/-! ### Encoding -/

/-- R52: the decoded fields, in arithmetic on the bytes; `b1` is not read. -/
def Obligations.DecodeReadsTheFields : Prop :=
  ∀ b0 b1 b2 b3 : Byte, (decode b0 b1 b2 b3).fields =
    { op := b0.toNat / 16, rx := b0.toNat / 4 % 4, ry := b0.toNat % 4, imm := b2.toNat * 256 + b3.toNat }

/-- R53: the codec masks its inputs, its two halves are inverse, and an instruction is emitted as four bytes. -/
def Obligations.CodecRoundTrip : Prop :=
  (∀ op x y : Nat, (encodeByte0 op x y).toNat = op % 16 * 16 + x % 4 * 4 + y % 4) ∧
  (∀ op x y : Nat, op < 16 → x < 4 → y < 4 → decodeByte0 (encodeByte0 op x y) = (op, x, y)) ∧
  (∀ b : Byte, encodeByte0 (decodeByte0 b).1 (decodeByte0 b).2.1 (decodeByte0 b).2.2 = b) ∧
  (∀ i : Instr, (encode i).map BitVec.toNat =
    [i.fields.op * 16 + i.fields.rx * 4 + i.fields.ry, 0, i.fields.imm / 256, i.fields.imm % 256])

/-- Decoding what is encoded gives the instruction back, for every instruction and every value of every operand. -/
def Obligations.DecodeAfterEncode : Prop :=
  ∀ (i : Instr) (rest : List Byte), decodeBytes (encode i ++ rest) = .ok (i, rest)

/-- Encoding what is decoded gives back every bit but the reserved byte's (R51, R56), for all 2^32 words. -/
def Obligations.EncodeAfterDecode : Prop :=
  ∀ b0 b1 b2 b3 : Byte, encode (decode b0 b1 b2 b3) = [b0, 0#8, b2, b3]

/-- R55: the sixteen opcode numbers. -/
def Obligations.OpcodeMap : Prop :=
  Claims.EncodedAs 0 .mov ∧ Claims.EncodedAs 1 .add ∧ Claims.EncodedAs 2 .sub ∧ Claims.EncodedAs 3 .mul ∧
  Claims.EncodedAs 4 .div ∧ Claims.EncodedAs 5 .load ∧ Claims.EncodedAs 6 .store ∧ Claims.EncodedAs 7 .jmp ∧
  Claims.EncodedAs 8 .jeq ∧ Claims.EncodedAs 9 .jne ∧ Claims.EncodedAs 10 .call ∧ Claims.EncodedAs 11 .ret ∧
  Claims.EncodedAs 12 .push ∧ Claims.EncodedAs 13 .pop ∧ Claims.EncodedAs 14 .int ∧ Claims.EncodedAs 15 .extended

/-- Words of 95_test_vectors.md 2.1, written out, decode to the instructions they stand for. -/
def Obligations.SampleWordsDecode : Prop :=
  decode 0x00 0x00 0x00 0x0A = .mov .r0 .r0 10 ∧ decode 0x11 0x00 0x00 0x00 = .add .r0 .r1 0 ∧
  decode 0x46 0x00 0x00 0x00 = .div .r1 .r2 0 ∧ decode 0x5B 0x7E 0x12 0x34 = .load .r2 .r3 0x1234 ∧
  decode 0x6C 0x01 0x0F 0xFE = .store .r3 .r0 0x0FFE ∧ decode 0x92 0x00 0xFF 0xF4 = .jne .r0 .r2 0xFFF4 ∧
  decode 0xA0 0x00 0x00 0x1C = .call .r0 .r0 28 ∧ decode 0xC4 0x00 0x00 0x00 = .push .r1 .r0 0 ∧
  decode 0xE0 0x00 0x00 0x01 = .int .r0 .r0 1 ∧ decode 0xFF 0xFF 0xFF 0xFF = .extended .r3 .r3 0xFFFF

/-- R57: an instruction executes the same whatever the fields it ignores hold, and raises nothing for them; nor does the
runaway guard's test change. -/
def Obligations.UnusedFieldsAreIgnored : Prop :=
  ∀ (i : Instr) (s : State), exec i.canonical s = exec i s ∧ isRunawayPattern i.canonical = isRunawayPattern i

/-! ### MOV and the ALU -/

/-- R85: the field `ry = 0` selects the immediate, written unchanged; else the register. Of all MOVs the runaway guard counts
`MOV R0, #0` alone. -/
def Obligations.MovWritesSource : Prop :=
  Claims.EncodedAs 0 .mov ∧
  (∀ (rx ry : Reg) (imm : Word), isRunawayPattern (.mov rx ry imm) = true ↔ rx = .r0 ∧ ry = .r0 ∧ imm.toNat = 0) ∧
  (∀ (s : State) (rx : Reg) (imm : Word), Claims.WritesReg (.mov rx .r0 imm) s rx imm.toNat) ∧
  (∀ (s : State) (rx ry : Reg) (imm : Word), ry ≠ .r0 → Claims.WritesReg (.mov rx ry imm) s rx (s.reg ry).toNat)

/-- R86: `x[rx] <- (x[rx] + x[ry]) mod 65536`. -/
def Obligations.AddWritesSum : Prop :=
  Claims.EncodedAs 1 .add ∧ ∀ (s : State) (rx ry : Reg) (imm : Word),
    Claims.WritesReg (.add rx ry imm) s rx ((((s.reg rx).toNat : Int) + (s.reg ry).toNat) % 65536)

/-- R87: `x[rx] <- (x[rx] - x[ry]) mod 65536`. -/
def Obligations.SubWritesDifference : Prop :=
  Claims.EncodedAs 2 .sub ∧ ∀ (s : State) (rx ry : Reg) (imm : Word),
    Claims.WritesReg (.sub rx ry imm) s rx ((((s.reg rx).toNat : Int) - (s.reg ry).toNat) % 65536)

/-- R88: `x[rx] <- (x[rx] * x[ry]) mod 65536`. -/
def Obligations.MulWritesLowProduct : Prop :=
  Claims.EncodedAs 3 .mul ∧ ∀ (s : State) (rx ry : Reg) (imm : Word),
    Claims.WritesReg (.mul rx ry imm) s rx ((((s.reg rx).toNat : Int) * (s.reg ry).toNat) % 65536)

/-- R89: the quotient of the unsigned contents; for a zero divisor every register keeps its contents and `pc` advances. -/
def Obligations.DivWritesQuotient : Prop :=
  Claims.EncodedAs 4 .div ∧
  (∀ (s : State) (rx ry : Reg) (imm : Word), (s.reg ry).toNat ≠ 0 →
    Claims.WritesReg (.div rx ry imm) s rx (((s.reg rx).toNat / (s.reg ry).toNat : Nat) : Int)) ∧
  (∀ (s : State) (rx ry : Reg) (imm : Word), (s.reg ry).toNat = 0 →
    Claims.WritesReg (.div rx ry imm) s rx (s.reg rx).toNat)

/-! ### LOAD and STORE -/

/-- R95: the big-endian word at the absolute address `imm`, or `AddressOutOfRange(imm)`. -/
def Obligations.LoadReadsWord : Prop :=
  Claims.EncodedAs 5 .load ∧
  (∀ (s : State) (rx ry : Reg) (imm : Word), imm.toNat ≤ 4094 →
    Claims.WritesReg (.load rx ry imm) s rx (Claims.wordAt s imm.toNat)) ∧
  (∀ (s : State) (rx ry : Reg) (imm : Word), 4094 < imm.toNat →
    Claims.Raises (.load rx ry imm) s (.addressOutOfRange imm))

/-- R96: the register's word, big-endian, to the absolute address `imm`, or `AddressOutOfRange(imm)`. -/
def Obligations.StoreWritesWord : Prop :=
  Claims.EncodedAs 6 .store ∧
  (∀ (s : State) (rx ry : Reg) (imm : Word), imm.toNat ≤ 4094 →
    ∃ t, exec (.store rx ry imm) s = .next t ∧ Claims.StoredAt s t imm.toNat (s.reg rx).toNat ∧ Claims.SameRegs s t ∧
      t.pc = s.pc + 4#16 ∧ t.sp = s.sp ∧ Claims.SameSeq s t ∧ Claims.SameEnv s t) ∧
  (∀ (s : State) (rx ry : Reg) (imm : Word), 4094 < imm.toNat →
    Claims.Raises (.store rx ry imm) s (.addressOutOfRange imm))

/-- "STORE then LOAD of the same address returns the stored value" (95_test_vectors.md 2.5). -/
def Obligations.LoadAfterStore : Prop :=
  ∀ (s : State) (rx ry qx qy : Reg) (imm : Word), imm.toNat ≤ 4094 →
    ∃ t u, exec (.store rx ry imm) s = .next t ∧ exec (.load qx qy imm) t = .next u ∧ u.reg qx = s.reg rx

/-- The byte at `b` once the word `v` stands big-endian at `a` (R34, R43). -/
def Sys2Proof.Claims.byteAfterStore (s : State) (a : Nat) (v : Word) (b : Nat) : Byte :=
  if b = a then highByte v else if b = a + 1 then lowByte v else s.mem.read b

/-- R43: a store is seen by a fetch of the stored bytes, wherever they lie in the fetched instruction. -/
def Obligations.StoreIsSeenByFetch : Prop :=
  ∀ (s t : State) (rx ry : Reg) (imm p : Word), imm.toNat ≤ 4094 → p.toNat ≤ 4092 →
    exec (.store rx ry imm) s = .next t →
    fetch (t.setPc p) = .ok (decode
      (Claims.byteAfterStore s imm.toNat (s.reg rx) p.toNat) (Claims.byteAfterStore s imm.toNat (s.reg rx) (p.toNat + 1))
      (Claims.byteAfterStore s imm.toNat (s.reg rx) (p.toNat + 2)) (Claims.byteAfterStore s imm.toNat (s.reg rx) (p.toNat + 3)))

/-! ### Control transfer -/

/-- R100: `pc <- (A + 4 + sext_16(imm)) mod 65536`. -/
def Obligations.JmpIsRelative : Prop :=
  Claims.EncodedAs 7 .jmp ∧ ∀ (s : State) (rx ry : Reg) (imm : Word),
    Claims.SetsPc (.jmp rx ry imm) s (((s.pc.toNat : Int) + 4 + imm.toInt) % 65536)

/-- R101: as JMP when the contents of the two registers are equal, else `A + 4`. -/
def Obligations.JeqBranchesOnEqual : Prop :=
  Claims.EncodedAs 8 .jeq ∧
  (∀ (s : State) (rx ry : Reg) (imm : Word), s.reg rx = s.reg ry →
    Claims.SetsPc (.jeq rx ry imm) s (((s.pc.toNat : Int) + 4 + imm.toInt) % 65536)) ∧
  (∀ (s : State) (rx ry : Reg) (imm : Word), s.reg rx ≠ s.reg ry →
    Claims.SetsPc (.jeq rx ry imm) s (((s.pc.toNat : Int) + 4) % 65536))

/-- R102: as JMP when the contents of the two registers differ, else `A + 4`. -/
def Obligations.JneBranchesOnUnequal : Prop :=
  Claims.EncodedAs 9 .jne ∧
  (∀ (s : State) (rx ry : Reg) (imm : Word), s.reg rx ≠ s.reg ry →
    Claims.SetsPc (.jne rx ry imm) s (((s.pc.toNat : Int) + 4 + imm.toInt) % 65536)) ∧
  (∀ (s : State) (rx ry : Reg) (imm : Word), s.reg rx = s.reg ry →
    Claims.SetsPc (.jne rx ry imm) s (((s.pc.toNat : Int) + 4) % 65536))

/-- R103: the return address goes to the bytes at `(sp - 2) mod 65536`, the new `sp`; with no room nothing is written. -/
def Obligations.CallPushesAndJumps : Prop :=
  Claims.EncodedAs 10 .call ∧
  (∀ s : State, (s.pushAddr.toNat : Int) = ((s.sp.toNat : Int) - 2) % 65536) ∧
  (∀ (s : State) (rx ry : Reg) (imm : Word), s.pushAddr.toNat ≤ 4094 →
    ∃ t, exec (.call rx ry imm) s = .next t ∧ Claims.StoredAt s t s.pushAddr.toNat ((s.pc.toNat + 4) % 65536) ∧
      t.sp = s.pushAddr ∧ t.pc = imm ∧ Claims.SameRegs s t ∧ Claims.SameSeq s t ∧ Claims.SameEnv s t) ∧
  (∀ (s : State) (rx ry : Reg) (imm : Word), 4094 < s.pushAddr.toNat →
    Claims.Raises (.call rx ry imm) s (.addressOutOfRange s.pushAddr))

/-- R104: the word at `sp` to `pc` and `sp` up by 2, or `AddressOutOfRange(sp)`. -/
def Obligations.RetPopsIntoPc : Prop :=
  Claims.EncodedAs 11 .ret ∧
  (∀ (s : State) (rx ry : Reg) (imm : Word), s.sp.toNat ≤ 4094 →
    ∃ t, exec (.ret rx ry imm) s = .next t ∧ t.pc.toNat = Claims.wordAt s s.sp.toNat ∧ t.sp.toNat = s.sp.toNat + 2 ∧
      Claims.SameRegs s t ∧ Claims.SameMem s t ∧ Claims.SameSeq s t ∧ Claims.SameEnv s t) ∧
  (∀ (s : State) (rx ry : Reg) (imm : Word), 4094 < s.sp.toNat →
    Claims.Raises (.ret rx ry imm) s (.addressOutOfRange s.sp))

/-- R64 with R100: the hardware's relative target undoes the assembler's offset. -/
def Obligations.RelativeOffsetIsInverse : Prop := ∀ a target : Word, relTarget a (relOffset a target) = target

/-- R14: in a step that reaches execution (`A <= 4092`) a relative target is the exact sum when that is not negative, and
wraps to 32772 or more when it is; sequential advance never wraps. -/
def Obligations.RelativeTargetRange : Prop :=
  ∀ (a imm : Word), a.toNat ≤ 4092 →
    (0 ≤ (a.toNat : Int) + 4 + imm.toInt → ((relTarget a imm).toNat : Int) = (a.toNat : Int) + 4 + imm.toInt ∧
      (relTarget a imm).toNat ≤ 36863) ∧
    ((a.toNat : Int) + 4 + imm.toInt < 0 → 32772 ≤ (relTarget a imm).toNat) ∧
    (a + 4#16).toNat = a.toNat + 4

/-! ### Stack -/

/-- R110: the register's word to the bytes at `(sp - 2) mod 65536`, the new `sp`, or `AddressOutOfRange` of that address. -/
def Obligations.PushWritesWord : Prop :=
  Claims.EncodedAs 12 .push ∧
  (∀ (s : State) (rx ry : Reg) (imm : Word), s.pushAddr.toNat ≤ 4094 →
    ∃ t, exec (.push rx ry imm) s = .next t ∧ Claims.StoredAt s t s.pushAddr.toNat (s.reg rx).toNat ∧
      t.sp = s.pushAddr ∧ t.pc = s.pc + 4#16 ∧ Claims.SameRegs s t ∧ Claims.SameSeq s t ∧ Claims.SameEnv s t) ∧
  (∀ (s : State) (rx ry : Reg) (imm : Word), 4094 < s.pushAddr.toNat →
    Claims.Raises (.push rx ry imm) s (.addressOutOfRange s.pushAddr)) ∧
  (∀ s : State, (s.pushAddr.toNat : Int) = ((s.sp.toNat : Int) - 2) % 65536)

/-- R111: the word at `sp` to the register and `sp` up by 2, or `AddressOutOfRange(sp)`. -/
def Obligations.PopReadsWord : Prop :=
  Claims.EncodedAs 13 .pop ∧
  (∀ (s : State) (rx ry : Reg) (imm : Word), s.sp.toNat ≤ 4094 →
    ∃ t, exec (.pop rx ry imm) s = .next t ∧ (t.reg rx).toNat = Claims.wordAt s s.sp.toNat ∧
      t.sp.toNat = s.sp.toNat + 2 ∧ Claims.SameRegsBut rx s t ∧ t.pc = s.pc + 4#16 ∧ Claims.SameMem s t ∧
      Claims.SameSeq s t ∧ Claims.SameEnv s t) ∧
  (∀ (s : State) (rx ry : Reg) (imm : Word), 4094 < s.sp.toNat →
    Claims.Raises (.pop rx ry imm) s (.addressOutOfRange s.sp))

/-- "Push/pop are strict LIFO": whatever words were pushed, popping as many gives them in reverse order. After the pops `sp`,
every register, `pc`, the sequencer state, the environment and every byte from the old `sp` upward are as before the pushes;
the popped bytes below stay where they were, so memory as a whole is as the pushes left it (R36, R37). -/
def Obligations.StackIsLifo : Prop :=
  ∀ (vs : List Word) (s t : State), Claims.pushAll vs s = .ok t →
    ∃ u, Claims.popMany vs.length t = .ok (vs.reverse, u) ∧ u.sp = s.sp ∧ Claims.SameRegs s u ∧ u.pc = s.pc ∧
      Claims.SameSeq s u ∧ Claims.SameEnv s u ∧ Claims.SameMem t u ∧ ∀ a, s.sp.toNat ≤ a → u.mem.read a = s.mem.read a

/-! ### INT and EXTENDED -/

/-- R116 (with R115): service 0. -/
def Obligations.IntZeroHalts : Prop :=
  ∀ (s : State) (rx ry : Reg), ∃ t, exec (.int rx ry 0#16) s = .next t ∧ t.running = false ∧ t.haltCause = some .intHalt ∧
    t.error = s.error ∧ t.pc = s.pc + 4#16 ∧ Claims.SameRegs s t ∧ t.sp = s.sp ∧ Claims.SameMem s t ∧
    Claims.SameCounters s t ∧ Claims.SameEnv s t

/-- R117: service 1. -/
def Obligations.IntOneEmitsOutput : Prop :=
  ∀ (s : State) (rx ry : Reg), ∃ t, exec (.int rx ry 1#16) s = .next t ∧ t.output = s.output ++ [.output (s.reg .r0)] ∧
    t.input = s.input ∧ t.pollCount = s.pollCount ∧ t.pc = s.pc + 4#16 ∧ Claims.SameRegs s t ∧ t.sp = s.sp ∧
    Claims.SameMem s t ∧ Claims.SameSeq s t

/-- R118: service 2, for every answer the environment may give: the listed answers' head, or any free answer when none is
listed. The answer is consumed. -/
def Obligations.IntTwoPolls : Prop :=
  ∀ (s : State) (rx ry : Reg), ∃ t, exec (.int rx ry 2#16) s = .next t ∧
    (∀ b rest, s.input = some b :: rest → (t.reg .r0).toNat = b.toNat ∧ t.input = rest) ∧
    (∀ rest, s.input = none :: rest → (t.reg .r0).toNat = 0 ∧ t.input = rest) ∧
    (s.input = [] → t.input = [] ∧ (∀ b, Config.tryReadByte s.pollCount = some b → (t.reg .r0).toNat = b.toNat) ∧
      (Config.tryReadByte s.pollCount = none → (t.reg .r0).toNat = 0)) ∧
    t.pollCount = s.pollCount + 1 ∧ t.output = s.output ∧ Claims.SameRegsBut .r0 s t ∧ t.pc = s.pc + 4#16 ∧ t.sp = s.sp ∧
    Claims.SameMem s t ∧ Claims.SameSeq s t

/-- R119: service 3. -/
def Obligations.IntThreeWritesByte : Prop :=
  ∀ (s : State) (rx ry : Reg), ∃ t b, exec (.int rx ry 3#16) s = .next t ∧ t.output = s.output ++ [.writeByte b] ∧
    b.toNat = (s.reg .r0).toNat % 256 ∧ t.input = s.input ∧ t.pollCount = s.pollCount ∧ t.pc = s.pc + 4#16 ∧
    Claims.SameRegs s t ∧ t.sp = s.sp ∧ Claims.SameMem s t ∧ Claims.SameSeq s t

/-- R121: any other number. -/
def Obligations.IntUnknownRaises : Prop :=
  ∀ (s : State) (rx ry : Reg) (imm : Word), 4 ≤ imm.toNat → Claims.Raises (.int rx ry imm) s (.unknownInterrupt imm)

/-- R120: nothing but `pc <- A + 4`. -/
def Obligations.ExtendedIsNoOp : Prop :=
  Claims.EncodedAs 15 .extended ∧ ∀ (s : State) (rx ry : Reg) (imm : Word),
    Claims.SetsPc (.extended rx ry imm) s (((s.pc.toNat : Int) + 4) % 65536)

/-! ### All instructions -/

/-- The registers an instruction reads (R12's table). -/
def Sys2Proof.Claims.readsReg : Instr → Reg → Bool
  | .mov _ y _, r => y != .r0 && r == y
  | .add x y _, r | .sub x y _, r | .mul x y _, r | .div x y _, r | .jeq x y _, r | .jne x y _, r => r == x || r == y
  | .store x _ _, r | .push x _ _, r => r == x
  | .int _ _ v, r => (v == 1#16 || v == 3#16) && r == .r0
  | .load _ _ _, _ | .jmp _ _ _, _ | .call _ _ _, _ | .ret _ _ _, _ | .pop _ _ _, _ | .extended _ _ _, _ => false

/-- The registers an instruction may write (R12's table; DIV only for a nonzero divisor). -/
def Sys2Proof.Claims.writesReg : Instr → State → Reg → Bool
  | .mov x _ _, _, r | .add x _ _, _, r | .sub x _ _, _, r | .mul x _ _, _, r | .load x _ _, _, r | .pop x _ _, _, r => r == x
  | .div x y _, s, r => s.reg y != 0#16 && r == x
  | .int _ _ v, _, r => v == 2#16 && r == .r0
  | .store _ _ _, _, _ | .jmp _ _ _, _, _ | .jeq _ _ _, _, _ | .jne _ _ _, _, _ | .call _ _ _, _, _ | .ret _ _ _, _, _
  | .push _ _ _, _, _ | .extended _ _ _, _, _ => false

/-- R12: no instruction changes a register outside the table's writes, and the contents of a register outside the table's
reads change nothing an instruction does but that register itself. -/
def Obligations.RegistersReadAndWritten : Prop :=
  (∀ (i : Instr) (s t : State) (r : Reg), exec i s = .next t → Claims.writesReg i s r = false → t.reg r = s.reg r) ∧
  (∀ (i : Instr) (s t t' : State) (r : Reg) (v : Word), Claims.readsReg i r = false → exec i s = .next t →
    exec i (s.setReg r v) = .next t' → t' = t.setReg r (t'.reg r) ∧ (t'.reg r = v ∨ t'.reg r = t.reg r))

/-- R15's table: the next `pc` of an instruction that raises nothing; an instruction that raises leaves `pc`. -/
def Obligations.NextPcOfEachInstruction : Prop :=
  ∀ (i : Instr) (s t : State), s.error = none → exec i s = .next t →
    (t.error ≠ none → t.pc = s.pc) ∧
    (t.error = none → (t.pc.toNat : Int) =
      match i with
      | .jmp _ _ v => ((s.pc.toNat : Int) + 4 + v.toInt) % 65536
      | .jeq x y v => if s.reg x = s.reg y then ((s.pc.toNat : Int) + 4 + v.toInt) % 65536 else ((s.pc.toNat : Int) + 4) % 65536
      | .jne x y v => if s.reg x ≠ s.reg y then ((s.pc.toNat : Int) + 4 + v.toInt) % 65536 else ((s.pc.toNat : Int) + 4) % 65536
      | .call _ _ v => v.toNat
      | .ret _ _ _ => Claims.wordAt s s.sp.toNat
      | _ => ((s.pc.toNat : Int) + 4) % 65536)

/-- The address of the two bytes an instruction stores to, when it stores (R38): the operand of STORE, the push address of
PUSH and CALL. -/
def Sys2Proof.Claims.storeAddr : Instr → State → Option Nat
  | .store _ _ v, _ => some v.toNat
  | .push _ _ _, s | .call _ _ _, s => some s.pushAddr.toNat
  | _, _ => none

/-- R38: only STORE, PUSH and CALL write memory, and each only its two bytes. -/
def Obligations.MemoryFrame : Prop :=
  ∀ (i : Instr) (s t : State), exec i s = .next t →
    (Claims.storeAddr i s = none → Claims.SameMem s t) ∧
    (∀ a, Claims.storeAddr i s = some a → ∀ b, b ≠ a → b ≠ a + 1 → t.mem.read b = s.mem.read b)

/-- R17: only PUSH and CALL lower `sp`, by 2 modulo 65536, only POP and RET raise it, by 2; no other instruction and neither
`load` nor `run` changes it. -/
def Obligations.StackPointerFrame : Prop :=
  (∀ (i : Instr) (s t : State), exec i s = .next t → t.sp ≠ s.sp →
    (((∃ x y v, i = .push x y v) ∨ (∃ x y v, i = .call x y v)) ∧ (t.sp.toNat : Int) = ((s.sp.toNat : Int) - 2) % 65536) ∨
    (((∃ x y v, i = .pop x y v) ∨ (∃ x y v, i = .ret x y v)) ∧ (t.sp.toNat : Int) = ((s.sp.toNat : Int) + 2) % 65536)) ∧
  (∀ (base : ProgramBase) (s t : State) (bytes : List Byte) (a : Option Nat) (p : Option Word),
    (hostMove base (.load bytes a) s = .next t ∨ hostMove base (.run p) s = .next t) → t.sp = s.sp)

/-- R47: the instructions' causes of `AddressOutOfRange`, with the address recorded; no instruction has another. -/
def Obligations.AddressErrorCauses : Prop :=
  ∀ (i : Instr) (s t : State) (a : Word), s.error = none → exec i s = .next t →
    (t.error = some (.addressOutOfRange a) ↔
      (∃ x y v, (i = .load x y v ∨ i = .store x y v) ∧ 4094 < v.toNat ∧ a = v) ∨
      (∃ x y v, (i = .push x y v ∨ i = .call x y v) ∧ 4094 < s.pushAddr.toNat ∧ a = s.pushAddr) ∨
      (∃ x y v, (i = .pop x y v ∨ i = .ret x y v) ∧ 4094 < s.sp.toNat ∧ a = s.sp))

/-- R28, R134 to R136: only INT 1 and INT 3 touch the output trace, and only INT 2 draws an answer. -/
def Obligations.OnlyIntTouchesEnvironment : Prop :=
  ∀ (i : Instr) (s t : State), exec i s = .next t →
    (t.output ≠ s.output → ∃ x y v, i = .int x y v ∧ (v = 1#16 ∨ v = 3#16)) ∧
    ((t.input ≠ s.input ∨ t.pollCount ≠ s.pollCount) → ∃ x y v, i = .int x y v ∧ v = 2#16)

/-- R160, R161: no instruction reads or writes `limit` or either counter. -/
def Obligations.SequencerIsOutOfReach : Prop :=
  ∀ (i : Instr) (s t : State) (l : Option Nat) (n k : Nat), exec i s = .next t →
    Claims.SameCounters s t ∧
    exec i { s with limit := l, execCount := n, nopCount := k } = .next { t with limit := l, execCount := n, nopCount := k }

/-! ### The step -/

/-- R70: a step whose bytes at `pc` decode to `i` runs `i` with the guard's count updated, and then the end of the step,
unless the guard raises. -/
def Obligations.StepRunsDecodedInstruction : Prop :=
  ∀ (s : State) (i : Instr), s.running = true → s.pc.toNat ≤ 4092 → Claims.instrAt s = i →
    ¬ (i = .mov .r0 .r0 0#16 ∧ 1 ≤ s.nopCount) →
    step s = finish (exec i { s with nopCount := if i = .mov .r0 .r0 0#16 then s.nopCount + 1 else 0 })

/-- What the end of a step does to the state `t` that the instruction left (R70 steps e and f, R77, R78): nothing after a
raise; else the count, then the limit's error, then the end-of-memory halt. That a raise is known by its latch is the model's
(notes/assumptions/13.md). -/
def Obligations.EndOfStepChecks : Prop :=
  ∀ t : State,
    (t.error ≠ none → finish (.next t) = .next t) ∧
    (t.error = none → ∃ u, finish (.next t) = .next u ∧ u.execCount = t.execCount + 1 ∧ u.nopCount = t.nopCount ∧
      u.limit = t.limit ∧ u.pc = t.pc ∧ u.sp = t.sp ∧ Claims.SameRegs t u ∧ Claims.SameMem t u ∧ Claims.SameEnv t u ∧
      (if ∃ n, t.limit = some n ∧ n ≤ t.execCount + 1 then
        u.running = false ∧ u.error = some .instructionLimitExceeded ∧ u.haltCause = t.haltCause
      else if t.running = true ∧ 4096 ≤ t.pc.toNat then
        u.running = false ∧ u.error = none ∧ u.haltCause = some .endOfMemory
      else u.running = t.running ∧ u.error = none ∧ u.haltCause = t.haltCause))

/-- R71, R33, R35: a fetch reads the four bytes at `pc` at any alignment, or raises with `pc` recorded and nothing changed. -/
def Obligations.FetchReadsFourBytes : Prop :=
  ∀ s : State,
    (s.pc.toNat ≤ 4092 → fetch s = .ok (Claims.instrAt s)) ∧
    (4092 < s.pc.toNat → s.running = true →
      step s = .next { s with running := false, error := some (.addressOutOfRange s.pc) })

/-- R147 (R74, D12): a running machine at a `MOV R0, #0` when the fetch before was one too takes the error and nothing else,
whatever its limit. From a fresh count, and with a limit the first instruction does not reach, two such words in a row (their
reserved bytes any) give one executed and counted instruction and then that error, with `pc` at the second. -/
def Obligations.SecondMovZeroIsRunaway : Prop :=
  (∀ s : State, s.running = true → s.pc.toNat ≤ 4092 → Claims.instrAt s = .mov .r0 .r0 0#16 → 1 ≤ s.nopCount →
    step s = .next { s with running := false, error := some .runawayExecution, nopCount := s.nopCount + 1 }) ∧
  (∀ (s : State) (r1 r2 : Byte), s.running = true → s.error = none → s.nopCount = 0 →
    (∀ n, s.limit = some n → s.execCount + 1 < n) → s.pc.toNat ≤ 4088 →
    (List.range 8).map (fun k => s.mem.read (s.pc.toNat + k)) = [0, r1, 0, 0, 0, r2, 0, 0] →
    ∃ t u, step s = .next t ∧ step t = .next u ∧
      t.running = true ∧ t.error = none ∧ t.execCount = s.execCount + 1 ∧ t.pc.toNat = s.pc.toNat + 4 ∧
      u.running = false ∧ u.error = some .runawayExecution ∧ u.execCount = s.execCount + 1 ∧ u.nopCount = 2 ∧
      u.pc.toNat = s.pc.toNat + 4 ∧ (u.reg .r0).toNat = 0 ∧ Claims.SameRegsBut .r0 s u ∧ Claims.SameMem s u ∧
      u.sp = s.sp ∧ u.limit = s.limit ∧ u.haltCause = s.haltCause ∧ Claims.SameEnv s u)

/-- R148: when a completed instruction brings the count to the limit, the error is latched and everything the instruction did
stands. -/
def Obligations.LimitErrorKeepsInstruction : Prop :=
  ∀ (s t : State) (n : Nat), s.running = true → s.pc.toNat ≤ 4092 → s.nopCount = 0 → s.limit = some n →
    n ≤ s.execCount + 1 →
    exec (Claims.instrAt s) { s with nopCount := if Claims.instrAt s = .mov .r0 .r0 0#16 then 1 else 0 } = .next t →
    t.error = none →
    step s = .next { t with running := false, error := some .instructionLimitExceeded, execCount := s.execCount + 1 }

/-- R150: errors are precise. After an aborting error everything but `running`, the latch and the guard's count is as when the
step began; after the limit error the instruction at `pc` has taken its full effect and is counted. -/
def Obligations.ErrorsArePrecise : Prop :=
  ∀ (s t : State) (e : ExecError), s.running = true → s.error = none → step s = .next t → t.error = some e →
    (e ≠ .instructionLimitExceeded →
      t = { s with running := false, error := some e, nopCount := t.nopCount } ∧
      (s.pc.toNat ≤ 4092 → t.nopCount = if Claims.instrAt s = .mov .r0 .r0 0#16 then s.nopCount + 1 else 0) ∧
      (4092 < s.pc.toNat → t.nopCount = s.nopCount)) ∧
    (e = .instructionLimitExceeded → s.pc.toNat ≤ 4092 ∧
      ∃ u, exec (Claims.instrAt s)
          { s with nopCount := if Claims.instrAt s = .mov .r0 .r0 0#16 then s.nopCount + 1 else 0 } = .next u ∧
        u.error = none ∧ t = { u with running := false, error := some e, execCount := s.execCount + 1 })

/-- The model's choice (notes/assumptions/3.md) for R70's "it takes no step while running = 0" and R165's "all state is
retained": the step of a stopped machine is the same state. -/
def Obligations.StoppedMachineKeepsItsState : Prop := ∀ s : State, s.running = false → step s = .next s

/-- R58, R70, R72, R150, R166 for the whole machine: no step of any state faults or is refused. Where the machine runs, an
error is a next state by R150 (notes/assumptions/4.md); that a stopped machine's step also has a next state is the model's
choice (notes/assumptions/3.md). -/
def Obligations.EveryStepHasANextState : Prop := ∀ s : State, ∃ t, step s = .next t

/-- R79: a step that ends the run ends it in one of the ways of the table, told by `error` and `halt_cause`, with `pc` as the
table says (the host's stop is `HostStopsAtBoundary`). -/
def Obligations.RunEndsInATabledWay : Prop :=
  ∀ s t : State, Inv s → s.running = true → step s = .next t → t.running = false →
    (t.error = none ∧ t.haltCause = some .intHalt ∧ t.pc = s.pc + 4#16 ∧ ∃ x y, Claims.instrAt s = .int x y 0#16) ∨
    (t.error = none ∧ t.haltCause = some .endOfMemory ∧ 4096 ≤ t.pc.toNat) ∨
    (t.error = some .runawayExecution ∧ t.haltCause = none ∧ t.pc = s.pc ∧ Claims.instrAt s = .mov .r0 .r0 0#16) ∨
    (∃ c x y, t.error = some (.unknownInterrupt c) ∧ t.haltCause = none ∧ t.pc = s.pc ∧ Claims.instrAt s = .int x y c) ∨
    (∃ a, t.error = some (.addressOutOfRange a) ∧ t.haltCause = none ∧ t.pc = s.pc ∧ (4092 < s.pc.toNat → a = s.pc)) ∨
    (t.error = some .instructionLimitExceeded ∧
      (∃ u, exec (Claims.instrAt s)
          { s with nopCount := if Claims.instrAt s = .mov .r0 .r0 0#16 then s.nopCount + 1 else 0 } = .next u ∧
        u.error = none ∧ t.pc = u.pc) ∧
      (t.haltCause = none ∨ (t.haltCause = some .intHalt ∧ ∃ x y, Claims.instrAt s = .int x y 0#16)))

/-- R164: `setInstructionLimit(1)` then `run(pc)` executes exactly one instruction and stops with the limit error, when the
instruction raises nothing of its own. -/
def Obligations.LimitOneIsASingleStep : Prop :=
  ∀ (base : ProgramBase) (s t : State), s.running = false → s.pc.toNat ≤ 4092 →
    exec (Claims.instrAt s) { startRun { s with limit := some 1 } s.pc with
      nopCount := if Claims.instrAt s = .mov .r0 .r0 0#16 then 1 else 0 } = .next t → t.error = none →
    ∃ a b, hostMove base (.setInstructionLimit 1) s = .next a ∧ hostMove base (.run (some s.pc)) a = .next b ∧
      step b = .next { t with running := false, error := some .instructionLimitExceeded, execCount := 1 }

/-! ### Reset and the host's operations -/

/-- R27, R170: the reset values, for every `PROGRAM_BASE`; the explicit reset gives the same machine and keeps the output
trace, which is the environment's. That the empty trace, answer list and poll count of reset are the model's own fields is in
notes/assumptions/5.md and 6.md; this statement gives no value of theirs. -/
def Obligations.ResetValues : Prop :=
  ∀ base : ProgramBase,
    ((∀ r, (State.resetAt base).reg r = 0#16) ∧ (∀ a, (State.resetAt base).mem.read a = 0#8) ∧
      (State.resetAt base).pc.toNat = base.val ∧ (State.resetAt base).sp = 4095#16 ∧ (State.resetAt base).running = false ∧
      (State.resetAt base).nopCount = 0 ∧ (State.resetAt base).execCount = 0 ∧ (State.resetAt base).limit = none ∧
      (State.resetAt base).error = none ∧ (State.resetAt base).haltCause = none) ∧
    ∀ s : State, ∃ t, hostMove base .reset s = .next t ∧ Claims.SameEnv s t ∧
      t = { State.resetAt base with output := t.output, input := t.input, pollCount := t.pollCount }

/-- R129: `load` on a stopped machine, to the given address or to the instance's `PROGRAM_BASE` (R5). That "refused whole" is
the outcome `refused`, with no next state, is the model's (notes/assumptions/9.md). -/
def Obligations.LoadCopiesTheImage : Prop :=
  ∀ (base : ProgramBase) (s : State) (bytes : List Byte) (address : Option Nat) (a : Nat), s.running = false →
    (address = some a ∨ (address = none ∧ a = base.val)) →
    (a + bytes.length ≤ 4096 → ∃ t, hostMove base (.load bytes address) s = .next t ∧
      (∀ k (h : k < bytes.length), t.mem.read (a + k) = bytes[k]) ∧
      (∀ b, (b < a ∨ a + bytes.length ≤ b) → t.mem.read b = s.mem.read b) ∧
      t = { s with mem := t.mem, nopCount := 0, execCount := 0 }) ∧
    (4096 < a + bytes.length → hostMove base (.load bytes address) s = .refused (.loadPastEnd a bytes.length))

/-- R130: `run` on a stopped machine, from the given start or from the instance's `PROGRAM_BASE` (R5). -/
def Obligations.RunStartsTheMachine : Prop :=
  ∀ (base : ProgramBase) (s : State) (start : Option Word) (p : Nat), s.running = false →
    ((∃ w, start = some w ∧ p = w.toNat) ∨ (start = none ∧ p = base.val)) →
    ∃ t, hostMove base (.run start) s = .next t ∧
      t.pc.toNat = p ∧ t.running = true ∧ t.nopCount = 0 ∧ t.execCount = 0 ∧ t.error = none ∧ t.haltCause = none ∧
      Claims.SameRegs s t ∧ t.sp = s.sp ∧ Claims.SameMem s t ∧ t.limit = s.limit ∧ Claims.SameEnv s t

/-- R131: setting and clearing the limit of a stopped machine. -/
def Obligations.LimitIsSetAndCleared : Prop :=
  ∀ (base : ProgramBase) (s : State) (n : Nat), s.running = false →
    hostMove base (.setInstructionLimit n) s = .next { s with limit := some n } ∧
    hostMove base .clearInstructionLimit s = .next { s with limit := none }

/-- R132: the stop request at a boundary. That a stopped machine ignores it, whenever it stopped, is the model's
(notes/assumptions/18.md). -/
def Obligations.HostStopsAtBoundary : Prop :=
  ∀ (base : ProgramBase) (s : State),
    (s.running = true → hostMove base .stop s = .next { s with running := false, haltCause := some .hostStop }) ∧
    (s.running = false → hostMove base .stop s = .next s)

/-- The model's choice (notes/assumptions/8.md) for R45 and R129 to R131, which define these operations only while
`running = 0`: the model faults by name. -/
def Obligations.HostOperationsNeedAStoppedMachine : Prop :=
  ∀ (base : ProgramBase) (s : State) (bytes : List Byte) (a : Option Nat) (n : Nat) (p : Option Word), s.running = true →
    hostMove base (.load bytes a) s = .fault .hostOpWhileRunning ∧ hostMove base (.run p) s = .fault .hostOpWhileRunning ∧
    hostMove base (.setInstructionLimit n) s = .fault .hostOpWhileRunning ∧
    hostMove base .clearInstructionLimit s = .fault .hostOpWhileRunning

/-! ### Invariants -/

/-- Two memories in canonical form that read the same at every address are the same list (the model's representation). -/
def Obligations.MemoryFormIsCanonical : Prop :=
  ∀ m m' : Memory, m.wf → m'.wf → (∀ a, m.read a = m'.read a) → m = m'

/-- The invariant holds at reset, for every `PROGRAM_BASE`. -/
def Obligations.ResetSatisfiesInv : Prop := (∀ base, Inv (State.resetAt base)) ∧ Inv State.reset

/-- Every step keeps the invariant. -/
def Obligations.StepKeepsInv : Prop := ∀ s t : State, Inv s → step s = .next t → Inv t

/-- Every host operation keeps the invariant. -/
def Obligations.HostMoveKeepsInv : Prop :=
  ∀ (base : ProgramBase) (s t : State) (op : HostOp), Inv s → hostMove base op s = .next t → Inv t

/-- Every state that steps, host operations and the environment's answers can reach from reset satisfies the invariant. -/
def Obligations.ReachableSatisfiesInv : Prop := ∀ (base : ProgramBase) (s : State), Reachable base s → Inv s
end

