-- ==== Sys2Proof/Laws/Bits.lean ====
section
/-! SUPPORT. The width conversions, the ALU and the address computations as plain BitVec and Nat facts. -/

namespace Sys2Proof.Machine

/-- `narrow` is the residue modulo 65536 (R6, R11). -/
theorem narrow_toNat (v : Int) : ((narrow v).toNat : Int) = v % 65536 := by
  unfold narrow
  rw [BitVec.toNat_ofInt]
  have : (0 : Int) ≤ v % 65536 := Int.emod_nonneg _ (by decide)
  norm_num [Int.toNat_of_nonneg this]

/-- `narrow` of a value that fits is that value. -/
theorem narrow_toNat_of_lt {v : Int} (h0 : 0 ≤ v) (h1 : v < 65536) : ((narrow v).toNat : Int) = v := by
  rw [narrow_toNat, Int.emod_eq_of_lt h0 h1]

/-- `sext_16` is the two's-complement reading (R6). -/
theorem sext16_eq_toInt (v : Word) : sext16 v = v.toInt := by
  unfold sext16
  rw [BitVec.toInt_eq_toNat_cond]
  have := v.isLt
  split <;> split <;> omega

@[simp] theorem aluAdd_eq (a b : Word) : aluAdd a b = a + b := by
  apply BitVec.eq_of_toNat_eq
  have h := narrow_toNat ((a.toNat : Int) + (b.toNat : Int))
  unfold aluAdd
  rw [BitVec.toNat_add]
  omega

@[simp] theorem aluSub_eq (a b : Word) : aluSub a b = a - b := by
  apply BitVec.eq_of_toNat_eq
  have h := narrow_toNat ((a.toNat : Int) - (b.toNat : Int))
  have ha := a.isLt
  have hb := b.isLt
  unfold aluSub
  rw [BitVec.toNat_sub]
  omega

@[simp] theorem aluMul_eq (a b : Word) : aluMul a b = a * b := by
  apply BitVec.eq_of_toNat_eq
  have h := narrow_toNat ((a.toNat : Int) * (b.toNat : Int))
  unfold aluMul
  rw [BitVec.toNat_mul, ← Int.ofNat_inj, h]
  push_cast
  rfl

@[simp] theorem aluDiv_eq (a b : Word) : aluDiv a b = a / b := by
  apply BitVec.eq_of_toNat_eq
  have ha := a.isLt
  have hd : a.toNat / b.toNat ≤ a.toNat := Nat.div_le_self _ _
  unfold aluDiv
  rw [BitVec.toNat_udiv]
  generalize a.toNat / b.toNat = q at hd
  have h := narrow_toNat (q : Int)
  omega

@[simp] theorem aluEq_iff (a b : Word) : aluEq a b = true ↔ a = b := by simp [aluEq]

@[simp] theorem aluZeroDivisor_iff (b : Word) : aluZeroDivisor b = true ↔ b.toNat = 0 := by simp [aluZeroDivisor]

/-- `A + 4` (R14, R15). -/
theorem State.nextPc_eq (s : State) : s.nextPc = s.pc + 4#16 := by
  apply BitVec.eq_of_toNat_eq
  have h := narrow_toNat ((s.pc.toNat : Int) + 4)
  unfold State.nextPc
  rw [BitVec.toNat_add]
  simp only [BitVec.toNat_ofNat]
  omega

/-- `(sp - 2) mod 65536` (R36). -/
theorem State.pushAddr_eq (s : State) : s.pushAddr = s.sp - 2#16 := by
  apply BitVec.eq_of_toNat_eq
  have h := narrow_toNat ((s.sp.toNat : Int) - 2)
  have hs := s.sp.isLt
  unfold State.pushAddr
  rw [BitVec.toNat_sub]
  simp only [BitVec.toNat_ofNat]
  omega

/-- The relative target modulo 65536 (R14, R100). -/
theorem relTarget_toNat (a imm : Word) : ((relTarget a imm).toNat : Int) = ((a.toNat : Int) + 4 + imm.toInt) % 65536 := by
  unfold relTarget
  rw [narrow_toNat, sext16_eq_toInt]

/-- `joinBytes high low` is `high * 256 + low` (R6, R31). -/
theorem joinBytes_toNat (h l : Byte) : (joinBytes h l).toNat = h.toNat * 256 + l.toNat := by
  unfold joinBytes
  rw [BitVec.toNat_append, ← Nat.shiftLeft_add_eq_or_of_lt l.isLt, Nat.shiftLeft_eq]

/-- `v[15:8]` (R32). -/
theorem highByte_toNat (v : Word) : (highByte v).toNat = v.toNat / 256 := by
  unfold highByte
  rw [BitVec.extractLsb'_toNat, Nat.shiftRight_eq_div_pow]
  have := v.isLt
  omega

/-- `v[7:0]` (R32). -/
theorem lowByte_toNat (v : Word) : (lowByte v).toNat = v.toNat % 256 := by
  unfold lowByte
  rw [BitVec.extractLsb'_toNat, Nat.shiftRight_eq_div_pow]
  simp

/-- The two bytes of a word joined again are the word. -/
@[simp] theorem joinBytes_high_low (v : Word) : joinBytes (highByte v) (lowByte v) = v := by
  apply BitVec.eq_of_toNat_eq
  rw [joinBytes_toNat, highByte_toNat, lowByte_toNat]
  omega

end Sys2Proof.Machine
end

