-- ==== Sys2Proof/Laws/State.lean ====
section
/-! SUPPORT. One lemma per field per update of the state, each true by `rfl`, so that no later proof unfolds an update. -/

namespace Sys2Proof.Machine

@[simp] theorem State.setReg_regs (s : State) (r : Reg) (v : Word) : (s.setReg r v).regs = s.regs.set r v := rfl
@[simp] theorem State.setReg_pc (s : State) (r : Reg) (v : Word) : (s.setReg r v).pc = s.pc := rfl
@[simp] theorem State.setReg_sp (s : State) (r : Reg) (v : Word) : (s.setReg r v).sp = s.sp := rfl
@[simp] theorem State.setReg_mem (s : State) (r : Reg) (v : Word) : (s.setReg r v).mem = s.mem := rfl
@[simp] theorem State.setReg_running (s : State) (r : Reg) (v : Word) : (s.setReg r v).running = s.running := rfl
@[simp] theorem State.setReg_nopCount (s : State) (r : Reg) (v : Word) : (s.setReg r v).nopCount = s.nopCount := rfl
@[simp] theorem State.setReg_execCount (s : State) (r : Reg) (v : Word) : (s.setReg r v).execCount = s.execCount := rfl
@[simp] theorem State.setReg_limit (s : State) (r : Reg) (v : Word) : (s.setReg r v).limit = s.limit := rfl
@[simp] theorem State.setReg_error (s : State) (r : Reg) (v : Word) : (s.setReg r v).error = s.error := rfl
@[simp] theorem State.setReg_haltCause (s : State) (r : Reg) (v : Word) : (s.setReg r v).haltCause = s.haltCause := rfl
@[simp] theorem State.setReg_output (s : State) (r : Reg) (v : Word) : (s.setReg r v).output = s.output := rfl
@[simp] theorem State.setReg_input (s : State) (r : Reg) (v : Word) : (s.setReg r v).input = s.input := rfl
@[simp] theorem State.setReg_pollCount (s : State) (r : Reg) (v : Word) : (s.setReg r v).pollCount = s.pollCount := rfl

@[simp] theorem State.setPc_regs (s : State) (t : Word) : (s.setPc t).regs = s.regs := rfl
@[simp] theorem State.setPc_pc (s : State) (t : Word) : (s.setPc t).pc = t := rfl
@[simp] theorem State.setPc_sp (s : State) (t : Word) : (s.setPc t).sp = s.sp := rfl
@[simp] theorem State.setPc_mem (s : State) (t : Word) : (s.setPc t).mem = s.mem := rfl
@[simp] theorem State.setPc_running (s : State) (t : Word) : (s.setPc t).running = s.running := rfl
@[simp] theorem State.setPc_nopCount (s : State) (t : Word) : (s.setPc t).nopCount = s.nopCount := rfl
@[simp] theorem State.setPc_execCount (s : State) (t : Word) : (s.setPc t).execCount = s.execCount := rfl
@[simp] theorem State.setPc_limit (s : State) (t : Word) : (s.setPc t).limit = s.limit := rfl
@[simp] theorem State.setPc_error (s : State) (t : Word) : (s.setPc t).error = s.error := rfl
@[simp] theorem State.setPc_haltCause (s : State) (t : Word) : (s.setPc t).haltCause = s.haltCause := rfl
@[simp] theorem State.setPc_output (s : State) (t : Word) : (s.setPc t).output = s.output := rfl
@[simp] theorem State.setPc_input (s : State) (t : Word) : (s.setPc t).input = s.input := rfl
@[simp] theorem State.setPc_pollCount (s : State) (t : Word) : (s.setPc t).pollCount = s.pollCount := rfl
@[simp] theorem State.setPc_reg (s : State) (t : Word) (q : Reg) : (s.setPc t).reg q = s.reg q := rfl

@[simp] theorem State.setSp_regs (s : State) (t : Word) : (s.setSp t).regs = s.regs := rfl
@[simp] theorem State.setSp_pc (s : State) (t : Word) : (s.setSp t).pc = s.pc := rfl
@[simp] theorem State.setSp_sp (s : State) (t : Word) : (s.setSp t).sp = t := rfl
@[simp] theorem State.setSp_mem (s : State) (t : Word) : (s.setSp t).mem = s.mem := rfl
@[simp] theorem State.setSp_running (s : State) (t : Word) : (s.setSp t).running = s.running := rfl
@[simp] theorem State.setSp_nopCount (s : State) (t : Word) : (s.setSp t).nopCount = s.nopCount := rfl
@[simp] theorem State.setSp_execCount (s : State) (t : Word) : (s.setSp t).execCount = s.execCount := rfl
@[simp] theorem State.setSp_limit (s : State) (t : Word) : (s.setSp t).limit = s.limit := rfl
@[simp] theorem State.setSp_error (s : State) (t : Word) : (s.setSp t).error = s.error := rfl
@[simp] theorem State.setSp_haltCause (s : State) (t : Word) : (s.setSp t).haltCause = s.haltCause := rfl
@[simp] theorem State.setSp_output (s : State) (t : Word) : (s.setSp t).output = s.output := rfl
@[simp] theorem State.setSp_input (s : State) (t : Word) : (s.setSp t).input = s.input := rfl
@[simp] theorem State.setSp_pollCount (s : State) (t : Word) : (s.setSp t).pollCount = s.pollCount := rfl
@[simp] theorem State.setSp_reg (s : State) (t : Word) (q : Reg) : (s.setSp t).reg q = s.reg q := rfl

@[simp] theorem State.setMem_regs (s : State) (m : Memory) : (s.setMem m).regs = s.regs := rfl
@[simp] theorem State.setMem_pc (s : State) (m : Memory) : (s.setMem m).pc = s.pc := rfl
@[simp] theorem State.setMem_sp (s : State) (m : Memory) : (s.setMem m).sp = s.sp := rfl
@[simp] theorem State.setMem_mem (s : State) (m : Memory) : (s.setMem m).mem = m := rfl
@[simp] theorem State.setMem_running (s : State) (m : Memory) : (s.setMem m).running = s.running := rfl
@[simp] theorem State.setMem_nopCount (s : State) (m : Memory) : (s.setMem m).nopCount = s.nopCount := rfl
@[simp] theorem State.setMem_execCount (s : State) (m : Memory) : (s.setMem m).execCount = s.execCount := rfl
@[simp] theorem State.setMem_limit (s : State) (m : Memory) : (s.setMem m).limit = s.limit := rfl
@[simp] theorem State.setMem_error (s : State) (m : Memory) : (s.setMem m).error = s.error := rfl
@[simp] theorem State.setMem_haltCause (s : State) (m : Memory) : (s.setMem m).haltCause = s.haltCause := rfl
@[simp] theorem State.setMem_output (s : State) (m : Memory) : (s.setMem m).output = s.output := rfl
@[simp] theorem State.setMem_input (s : State) (m : Memory) : (s.setMem m).input = s.input := rfl
@[simp] theorem State.setMem_pollCount (s : State) (m : Memory) : (s.setMem m).pollCount = s.pollCount := rfl
@[simp] theorem State.setMem_reg (s : State) (m : Memory) (q : Reg) : (s.setMem m).reg q = s.reg q := rfl

@[simp] theorem State.advance_regs (s : State) : (s.advance).regs = s.regs := rfl
@[simp] theorem State.advance_pc (s : State) : (s.advance).pc = s.nextPc := rfl
@[simp] theorem State.advance_sp (s : State) : (s.advance).sp = s.sp := rfl
@[simp] theorem State.advance_mem (s : State) : (s.advance).mem = s.mem := rfl
@[simp] theorem State.advance_running (s : State) : (s.advance).running = s.running := rfl
@[simp] theorem State.advance_nopCount (s : State) : (s.advance).nopCount = s.nopCount := rfl
@[simp] theorem State.advance_execCount (s : State) : (s.advance).execCount = s.execCount := rfl
@[simp] theorem State.advance_limit (s : State) : (s.advance).limit = s.limit := rfl
@[simp] theorem State.advance_error (s : State) : (s.advance).error = s.error := rfl
@[simp] theorem State.advance_haltCause (s : State) : (s.advance).haltCause = s.haltCause := rfl
@[simp] theorem State.advance_output (s : State) : (s.advance).output = s.output := rfl
@[simp] theorem State.advance_input (s : State) : (s.advance).input = s.input := rfl
@[simp] theorem State.advance_pollCount (s : State) : (s.advance).pollCount = s.pollCount := rfl
@[simp] theorem State.advance_reg (s : State) (q : Reg) : (s.advance).reg q = s.reg q := rfl

@[simp] theorem raise_regs (s : State) (e : ExecError) : (raise s e).regs = s.regs := rfl
@[simp] theorem raise_pc (s : State) (e : ExecError) : (raise s e).pc = s.pc := rfl
@[simp] theorem raise_sp (s : State) (e : ExecError) : (raise s e).sp = s.sp := rfl
@[simp] theorem raise_mem (s : State) (e : ExecError) : (raise s e).mem = s.mem := rfl
@[simp] theorem raise_running (s : State) (e : ExecError) : (raise s e).running = false := rfl
@[simp] theorem raise_nopCount (s : State) (e : ExecError) : (raise s e).nopCount = s.nopCount := rfl
@[simp] theorem raise_execCount (s : State) (e : ExecError) : (raise s e).execCount = s.execCount := rfl
@[simp] theorem raise_limit (s : State) (e : ExecError) : (raise s e).limit = s.limit := rfl
@[simp] theorem raise_error (s : State) (e : ExecError) : (raise s e).error = some e := rfl
@[simp] theorem raise_haltCause (s : State) (e : ExecError) : (raise s e).haltCause = s.haltCause := rfl
@[simp] theorem raise_output (s : State) (e : ExecError) : (raise s e).output = s.output := rfl
@[simp] theorem raise_input (s : State) (e : ExecError) : (raise s e).input = s.input := rfl
@[simp] theorem raise_pollCount (s : State) (e : ExecError) : (raise s e).pollCount = s.pollCount := rfl
@[simp] theorem raise_reg (s : State) (e : ExecError) (q : Reg) : (raise s e).reg q = s.reg q := rfl

@[simp] theorem halt_regs (s : State) (c : HaltCause) : (halt s c).regs = s.regs := rfl
@[simp] theorem halt_pc (s : State) (c : HaltCause) : (halt s c).pc = s.pc := rfl
@[simp] theorem halt_sp (s : State) (c : HaltCause) : (halt s c).sp = s.sp := rfl
@[simp] theorem halt_mem (s : State) (c : HaltCause) : (halt s c).mem = s.mem := rfl
@[simp] theorem halt_running (s : State) (c : HaltCause) : (halt s c).running = false := rfl
@[simp] theorem halt_nopCount (s : State) (c : HaltCause) : (halt s c).nopCount = s.nopCount := rfl
@[simp] theorem halt_execCount (s : State) (c : HaltCause) : (halt s c).execCount = s.execCount := rfl
@[simp] theorem halt_limit (s : State) (c : HaltCause) : (halt s c).limit = s.limit := rfl
@[simp] theorem halt_error (s : State) (c : HaltCause) : (halt s c).error = s.error := rfl
@[simp] theorem halt_haltCause (s : State) (c : HaltCause) : (halt s c).haltCause = some c := rfl
@[simp] theorem halt_output (s : State) (c : HaltCause) : (halt s c).output = s.output := rfl
@[simp] theorem halt_input (s : State) (c : HaltCause) : (halt s c).input = s.input := rfl
@[simp] theorem halt_pollCount (s : State) (c : HaltCause) : (halt s c).pollCount = s.pollCount := rfl
@[simp] theorem halt_reg (s : State) (c : HaltCause) (q : Reg) : (halt s c).reg q = s.reg q := rfl

@[simp] theorem State.emit_regs (s : State) (e : Event) : (s.emit e).regs = s.regs := rfl
@[simp] theorem State.emit_pc (s : State) (e : Event) : (s.emit e).pc = s.pc := rfl
@[simp] theorem State.emit_sp (s : State) (e : Event) : (s.emit e).sp = s.sp := rfl
@[simp] theorem State.emit_mem (s : State) (e : Event) : (s.emit e).mem = s.mem := rfl
@[simp] theorem State.emit_running (s : State) (e : Event) : (s.emit e).running = s.running := rfl
@[simp] theorem State.emit_nopCount (s : State) (e : Event) : (s.emit e).nopCount = s.nopCount := rfl
@[simp] theorem State.emit_execCount (s : State) (e : Event) : (s.emit e).execCount = s.execCount := rfl
@[simp] theorem State.emit_limit (s : State) (e : Event) : (s.emit e).limit = s.limit := rfl
@[simp] theorem State.emit_error (s : State) (e : Event) : (s.emit e).error = s.error := rfl
@[simp] theorem State.emit_haltCause (s : State) (e : Event) : (s.emit e).haltCause = s.haltCause := rfl
@[simp] theorem State.emit_output (s : State) (e : Event) : (s.emit e).output = s.output ++ [e] := rfl
@[simp] theorem State.emit_input (s : State) (e : Event) : (s.emit e).input = s.input := rfl
@[simp] theorem State.emit_pollCount (s : State) (e : Event) : (s.emit e).pollCount = s.pollCount := rfl
@[simp] theorem State.emit_reg (s : State) (e : Event) (q : Reg) : (s.emit e).reg q = s.reg q := rfl

@[simp] theorem State.consumePoll_regs (s : State) : (s.consumePoll).regs = s.regs := rfl
@[simp] theorem State.consumePoll_pc (s : State) : (s.consumePoll).pc = s.pc := rfl
@[simp] theorem State.consumePoll_sp (s : State) : (s.consumePoll).sp = s.sp := rfl
@[simp] theorem State.consumePoll_mem (s : State) : (s.consumePoll).mem = s.mem := rfl
@[simp] theorem State.consumePoll_running (s : State) : (s.consumePoll).running = s.running := rfl
@[simp] theorem State.consumePoll_nopCount (s : State) : (s.consumePoll).nopCount = s.nopCount := rfl
@[simp] theorem State.consumePoll_execCount (s : State) : (s.consumePoll).execCount = s.execCount := rfl
@[simp] theorem State.consumePoll_limit (s : State) : (s.consumePoll).limit = s.limit := rfl
@[simp] theorem State.consumePoll_error (s : State) : (s.consumePoll).error = s.error := rfl
@[simp] theorem State.consumePoll_haltCause (s : State) : (s.consumePoll).haltCause = s.haltCause := rfl
@[simp] theorem State.consumePoll_output (s : State) : (s.consumePoll).output = s.output := rfl
@[simp] theorem State.consumePoll_input (s : State) : (s.consumePoll).input = s.input.tail := rfl
@[simp] theorem State.consumePoll_pollCount (s : State) : (s.consumePoll).pollCount = s.pollCount + 1 := rfl
@[simp] theorem State.consumePoll_reg (s : State) (q : Reg) : (s.consumePoll).reg q = s.reg q := rfl

@[simp] theorem guardCount_regs (s : State) (i : Instr) : (guardCount i s).regs = s.regs := rfl
@[simp] theorem guardCount_pc (s : State) (i : Instr) : (guardCount i s).pc = s.pc := rfl
@[simp] theorem guardCount_sp (s : State) (i : Instr) : (guardCount i s).sp = s.sp := rfl
@[simp] theorem guardCount_mem (s : State) (i : Instr) : (guardCount i s).mem = s.mem := rfl
@[simp] theorem guardCount_running (s : State) (i : Instr) : (guardCount i s).running = s.running := rfl
@[simp] theorem guardCount_nopCount (s : State) (i : Instr) : (guardCount i s).nopCount = if isRunawayPattern i then s.nopCount + 1 else 0 := rfl
@[simp] theorem guardCount_execCount (s : State) (i : Instr) : (guardCount i s).execCount = s.execCount := rfl
@[simp] theorem guardCount_limit (s : State) (i : Instr) : (guardCount i s).limit = s.limit := rfl
@[simp] theorem guardCount_error (s : State) (i : Instr) : (guardCount i s).error = s.error := rfl
@[simp] theorem guardCount_haltCause (s : State) (i : Instr) : (guardCount i s).haltCause = s.haltCause := rfl
@[simp] theorem guardCount_output (s : State) (i : Instr) : (guardCount i s).output = s.output := rfl
@[simp] theorem guardCount_input (s : State) (i : Instr) : (guardCount i s).input = s.input := rfl
@[simp] theorem guardCount_pollCount (s : State) (i : Instr) : (guardCount i s).pollCount = s.pollCount := rfl
@[simp] theorem guardCount_reg (s : State) (i : Instr) (q : Reg) : (guardCount i s).reg q = s.reg q := rfl

@[simp] theorem countInstr_regs (s : State) : (countInstr s).regs = s.regs := rfl
@[simp] theorem countInstr_pc (s : State) : (countInstr s).pc = s.pc := rfl
@[simp] theorem countInstr_sp (s : State) : (countInstr s).sp = s.sp := rfl
@[simp] theorem countInstr_mem (s : State) : (countInstr s).mem = s.mem := rfl
@[simp] theorem countInstr_running (s : State) : (countInstr s).running = s.running := rfl
@[simp] theorem countInstr_nopCount (s : State) : (countInstr s).nopCount = s.nopCount := rfl
@[simp] theorem countInstr_execCount (s : State) : (countInstr s).execCount = s.execCount + 1 := rfl
@[simp] theorem countInstr_limit (s : State) : (countInstr s).limit = s.limit := rfl
@[simp] theorem countInstr_error (s : State) : (countInstr s).error = s.error := rfl
@[simp] theorem countInstr_haltCause (s : State) : (countInstr s).haltCause = s.haltCause := rfl
@[simp] theorem countInstr_output (s : State) : (countInstr s).output = s.output := rfl
@[simp] theorem countInstr_input (s : State) : (countInstr s).input = s.input := rfl
@[simp] theorem countInstr_pollCount (s : State) : (countInstr s).pollCount = s.pollCount := rfl
@[simp] theorem countInstr_reg (s : State) (q : Reg) : (countInstr s).reg q = s.reg q := rfl

@[simp] theorem startRun_regs (s : State) (t : Word) : (startRun s t).regs = s.regs := rfl
@[simp] theorem startRun_pc (s : State) (t : Word) : (startRun s t).pc = t := rfl
@[simp] theorem startRun_sp (s : State) (t : Word) : (startRun s t).sp = s.sp := rfl
@[simp] theorem startRun_mem (s : State) (t : Word) : (startRun s t).mem = s.mem := rfl
@[simp] theorem startRun_running (s : State) (t : Word) : (startRun s t).running = true := rfl
@[simp] theorem startRun_nopCount (s : State) (t : Word) : (startRun s t).nopCount = 0 := rfl
@[simp] theorem startRun_execCount (s : State) (t : Word) : (startRun s t).execCount = 0 := rfl
@[simp] theorem startRun_limit (s : State) (t : Word) : (startRun s t).limit = s.limit := rfl
@[simp] theorem startRun_error (s : State) (t : Word) : (startRun s t).error = none := rfl
@[simp] theorem startRun_haltCause (s : State) (t : Word) : (startRun s t).haltCause = none := rfl
@[simp] theorem startRun_output (s : State) (t : Word) : (startRun s t).output = s.output := rfl
@[simp] theorem startRun_input (s : State) (t : Word) : (startRun s t).input = s.input := rfl
@[simp] theorem startRun_pollCount (s : State) (t : Word) : (startRun s t).pollCount = s.pollCount := rfl
@[simp] theorem startRun_reg (s : State) (t : Word) (q : Reg) : (startRun s t).reg q = s.reg q := rfl

/-- A register file read after a write of the same register. -/
@[simp] theorem RegFile.get_set_self (f : RegFile) (r : Reg) (v : Word) : (f.set r v).get r = v := by
  cases r <;> rfl

/-- A register file read after a write of another register. -/
theorem RegFile.get_set_ne (f : RegFile) (r q : Reg) (v : Word) (h : q ≠ r) : (f.set r v).get q = f.get q := by
  cases r <;> cases q <;> first | rfl | exact absurd rfl h

@[simp] theorem State.setReg_reg_self (s : State) (r : Reg) (v : Word) : (s.setReg r v).reg r = v :=
  RegFile.get_set_self s.regs r v

/-- Writing one register leaves every other one (R10: no aliases). -/
theorem State.setReg_reg_ne (s : State) (r q : Reg) (v : Word) (h : q ≠ r) : (s.setReg r v).reg q = s.reg q :=
  RegFile.get_set_ne s.regs r q v h

/-- A read of any register after a write, as one case distinction. -/
theorem State.setReg_reg (s : State) (r q : Reg) (v : Word) :
    (s.setReg r v).reg q = if q = r then v else s.reg q := by
  by_cases h : q = r
  · subst h; simp
  · simp [h, State.setReg_reg_ne]

/-- Two register files with the same contents are the same. -/
theorem RegFile.ext_get {f g : RegFile} (h : ∀ r, f.get r = g.get r) : f = g := by
  cases f; cases g
  have h0 := h .r0; have h1 := h .r1; have h2 := h .r2; have h3 := h .r3
  simp only [RegFile.get] at h0 h1 h2 h3
  simp [h0, h1, h2, h3]

/-- Writing back what a register holds changes nothing. -/
@[simp] theorem State.setReg_reg_id (s : State) (r : Reg) : s.setReg r (s.reg r) = s := by
  cases s; cases r <;> rfl

/-- A second write of the same register replaces the first. -/
@[simp] theorem State.setReg_setReg (s : State) (r : Reg) (v w : Word) : (s.setReg r v).setReg r w = s.setReg r w := by
  cases r <;> rfl

/-- Writes of two registers commute. -/
theorem State.setReg_comm (s : State) (r q : Reg) (v w : Word) (h : r ≠ q) :
    (s.setReg r v).setReg q w = (s.setReg q w).setReg r v := by
  cases r <;> cases q <;> first | exact absurd rfl h | rfl

/-- Two states whose fields agree are the same state. -/
theorem State.ext_fields {s t : State} (h1 : s.regs = t.regs) (h2 : s.pc = t.pc) (h3 : s.sp = t.sp) (h4 : s.mem = t.mem)
    (h5 : s.running = t.running) (h6 : s.nopCount = t.nopCount) (h7 : s.execCount = t.execCount)
    (h8 : s.limit = t.limit) (h9 : s.error = t.error) (h10 : s.haltCause = t.haltCause) (h11 : s.output = t.output)
    (h12 : s.input = t.input) (h13 : s.pollCount = t.pollCount) : s = t := by
  cases s; cases t; simp_all

end Sys2Proof.Machine
end

