-- ==== Sys2Proof/Laws/Host.lean ====
section
/-! SUPPORT. What a host operation can do, said once, and the parameter `PROGRAM_BASE` as an address. -/

namespace Sys2Proof.Machine

/-- The parameter is below 65536, so as a 16-bit address it is itself. -/
@[simp] theorem programBase_word_toNat (base : ProgramBase) : base.word.toNat = base.val := by
  unfold ProgramBase.word
  rw [BitVec.toNat_ofNat]
  omega

@[simp] theorem whenStopped_running (s : State) (o : Host.Outcome State Fault Refusal) (h : s.running = true) :
    whenStopped s o = .fault .hostOpWhileRunning := by
  rw [whenStopped, if_pos h]

@[simp] theorem whenStopped_stopped (s : State) (o : Host.Outcome State Fault Refusal) (h : s.running = false) :
    whenStopped s o = o := by
  rw [whenStopped, if_neg (by simp [h])]

/-- What a host operation that answers a next state has done. -/
theorem hostMove_cases {base : ProgramBase} {op : HostOp} {s t : State} (h : hostMove base op s = .next t) :
    (∃ bytes address, op = .load bytes address ∧ s.running = false ∧ address.getD base.val + bytes.length ≤ memorySize ∧
      t = { s with mem := s.mem.writeBytes (address.getD base.val) bytes, nopCount := 0, execCount := 0 }) ∨
    (∃ start, op = .run start ∧ s.running = false ∧ t = startRun s (start.getD base.word)) ∨
    (∃ n, op = .setInstructionLimit n ∧ s.running = false ∧ t = { s with limit := some n }) ∨
    (op = .clearInstructionLimit ∧ s.running = false ∧ t = { s with limit := none }) ∨
    (op = .stop ∧ ((s.running = true ∧ t = halt s .hostStop) ∨ (s.running = false ∧ t = s))) ∨
    (op = .reset ∧
      t = { State.resetAt base with output := s.output, input := s.input, pollCount := s.pollCount }) := by
  cases hr : s.running with
  | true =>
    cases op with
    | load bytes address => simp [hostMove, hostLoad, hr] at h
    | run start => simp [hostMove, hostRun, hr] at h
    | setInstructionLimit n => simp [hostMove, hostSetLimit, hr] at h
    | clearInstructionLimit => simp [hostMove, hostClearLimit, hr] at h
    | stop => simpa [hostMove, hostStop, hr] using h.symm
    | reset => simpa [hostMove, hostReset] using h.symm
  | false =>
    cases op with
    | load bytes address =>
      simp only [hostMove, hostLoad, whenStopped_stopped s _ hr] at h
      split at h
      · rename_i hle
        cases h
        exact .inl ⟨bytes, address, rfl, rfl, hle, by simp [hr]⟩
      · cases h
    | run start => simpa [hostMove, hostRun, hr] using h.symm
    | setInstructionLimit n => simpa [hostMove, hostSetLimit, hr] using h.symm
    | clearInstructionLimit => simpa [hostMove, hostClearLimit, hr] using h.symm
    | stop => simpa [hostMove, hostStop, hr] using h.symm
    | reset => simpa [hostMove, hostReset] using h.symm

end Sys2Proof.Machine
end

