-- ==== Sys2Proof/Laws/Memory.lean ====
section
/-! SUPPORT. The memory laws: read after write, the frame of a write, and that every memory operation keeps the canonical
form. The read laws hold of every list; only the canonical form itself needs `Memory.wf`. -/

namespace Sys2Proof.Machine

@[simp] theorem Memory.read_nil (a : Nat) : Memory.read [] a = Memory.resetByte := rfl

theorem Memory.read_cons (c : Host.Cell) (m : Memory) (a : Nat) :
    Memory.read (c :: m) a = if c.1 = a then c.2 else Memory.read m a := rfl

theorem Memory.read_remove_self (m : Memory) (a : Nat) : (m.remove a).read a = Memory.resetByte := by
  induction m with
  | nil => rfl
  | cons c m ih =>
    simp only [Memory.remove]
    split
    · exact ih
    · rename_i h
      rw [Memory.read_cons, if_neg h, ih]

theorem Memory.read_remove_ne (m : Memory) {a b : Nat} (hne : b ≠ a) : (m.remove a).read b = m.read b := by
  induction m with
  | nil => rfl
  | cons c m ih =>
    simp only [Memory.remove]
    split
    · rename_i h
      rw [ih, Memory.read_cons, if_neg (by omega)]
    · rw [Memory.read_cons, Memory.read_cons, ih]

theorem Memory.read_place_ne (m : Memory) {a b : Nat} (v : Byte) (hne : b ≠ a) : (m.place a v).read b = m.read b := by
  induction m with
  | nil => simp [Memory.place, Memory.read_cons, hne.symm]
  | cons c m ih =>
    simp only [Memory.place]
    split
    · rw [Memory.read_cons, if_neg hne.symm]
    · rw [Memory.read_cons, Memory.read_cons, ih]

/-- No entry of the memory is for the address `a`. -/
def Memory.Free (m : Memory) (a : Nat) : Prop := ∀ c ∈ m, c.1 ≠ a

theorem Memory.free_remove (m : Memory) (a : Nat) : (m.remove a).Free a := by
  induction m with
  | nil => intro c hc; cases hc
  | cons c m ih =>
    simp only [Memory.remove]
    split
    · exact ih
    · rename_i h
      intro d hd
      rcases List.mem_cons.mp hd with rfl | hd
      · exact h
      · exact ih d hd

theorem Memory.read_place_self (m : Memory) (a : Nat) (v : Byte) (h : m.Free a) : (m.place a v).read a = v := by
  induction m with
  | nil => simp [Memory.place, Memory.read_cons]
  | cons c m ih =>
    simp only [Memory.place]
    split
    · simp [Memory.read_cons]
    · rw [Memory.read_cons, if_neg (h c (List.mem_cons_self ..))]
      exact ih fun d hd => h d (List.mem_cons_of_mem _ hd)

/-- A read of the byte just written (R32, R40). -/
@[simp] theorem Memory.read_write_self (m : Memory) (a : Nat) (v : Byte) : (m.write a v).read a = v := by
  unfold Memory.write
  split
  · rename_i h
    rw [Memory.read_remove_self, h]
  · exact Memory.read_place_self _ _ _ (Memory.free_remove m a)

/-- A write leaves every other byte alone (R32). -/
theorem Memory.read_write_ne (m : Memory) {a b : Nat} (v : Byte) (hne : b ≠ a) : (m.write a v).read b = m.read b := by
  unfold Memory.write
  split
  · exact Memory.read_remove_ne m hne
  · rw [Memory.read_place_ne _ _ hne, Memory.read_remove_ne m hne]

/-- A read after a write, as one case distinction. -/
theorem Memory.read_write (m : Memory) (a b : Nat) (v : Byte) :
    (m.write a v).read b = if b = a then v else m.read b := by
  by_cases h : b = a
  · subst h; simp
  · simp [h, Memory.read_write_ne]

/-- A read outside the bytes written in a row. -/
theorem Memory.read_writeBytes_outside (bs : List Byte) :
    ∀ (m : Memory) (a b : Nat), (b < a ∨ a + bs.length ≤ b) → (m.writeBytes a bs).read b = m.read b := by
  induction bs with
  | nil => intro m a b _; rfl
  | cons v bs ih =>
    intro m a b h
    simp only [List.length_cons] at h
    rw [Memory.writeBytes, ih _ _ _ (by omega), Memory.read_write_ne _ _ (by omega)]

/-- A read of one of the bytes written in a row. -/
theorem Memory.read_writeBytes_inside (bs : List Byte) :
    ∀ (m : Memory) (a k : Nat) (h : k < bs.length), (m.writeBytes a bs).read (a + k) = bs[k] := by
  induction bs with
  | nil => intro m a k h; simp at h
  | cons v bs ih =>
    intro m a k h
    cases k with
    | zero => rw [Memory.writeBytes, Memory.read_writeBytes_outside _ _ _ _ (by omega)]; simp
    | succ k =>
      have := ih (m.write a v) (a + 1) k (by simpa using h)
      rw [Memory.writeBytes, show a + (k + 1) = a + 1 + k by omega, this]
      simp

theorem Memory.mem_remove {m : Memory} {a : Nat} {c : Host.Cell} (h : c ∈ m.remove a) : c ∈ m := by
  induction m with
  | nil => exact h
  | cons d m ih =>
    simp only [Memory.remove] at h
    split at h
    · exact List.mem_cons_of_mem _ (ih h)
    · rcases List.mem_cons.mp h with rfl | h
      · exact List.mem_cons_self ..
      · exact List.mem_cons_of_mem _ (ih h)

theorem Memory.mem_place {m : Memory} {a : Nat} {v : Byte} {c : Host.Cell} (h : c ∈ m.place a v) :
    c = (a, v) ∨ c ∈ m := by
  induction m with
  | nil => simpa [Memory.place] using h
  | cons d m ih =>
    simp only [Memory.place] at h
    split at h
    · simpa using h
    · rcases List.mem_cons.mp h with rfl | h
      · exact .inr (List.mem_cons_self ..)
      · exact (ih h).imp id (List.mem_cons_of_mem _)

theorem Memory.wf_remove {m : Memory} (h : m.wf) (a : Nat) : (m.remove a).wf := by
  refine ⟨?_, fun c hc => h.2 c (Memory.mem_remove hc)⟩
  have hp := h.1
  clear h
  induction m with
  | nil => exact hp
  | cons c m ih =>
    obtain ⟨h1, h2⟩ := List.pairwise_cons.mp hp
    simp only [Memory.remove]
    split
    · exact ih h2
    · exact List.pairwise_cons.mpr ⟨fun d hd => h1 d (Memory.mem_remove hd), ih h2⟩

theorem Memory.wf_place {m : Memory} (h : m.wf) {a : Nat} {v : Byte} (hf : m.Free a) (ha : a < memorySize)
    (hv : v ≠ Memory.resetByte) : (m.place a v).wf := by
  refine ⟨?_, fun c hc => ?_⟩
  · have hp := h.1
    clear h
    induction m with
    | nil => simp [Memory.place]
    | cons c m ih =>
      obtain ⟨h1, h2⟩ := List.pairwise_cons.mp hp
      simp only [Memory.place]
      split
      · rename_i hlt
        refine List.pairwise_cons.mpr ⟨fun d hd => ?_, hp⟩
        rcases List.mem_cons.mp hd with rfl | hd
        · exact hlt
        · exact Nat.lt_trans hlt (h1 d hd)
      · rename_i hnlt
        have hne := hf c (List.mem_cons_self ..)
        refine List.pairwise_cons.mpr ⟨fun d hd => ?_, ih (fun d hd => hf d (List.mem_cons_of_mem _ hd)) h2⟩
        rcases Memory.mem_place hd with rfl | hd
        · change c.1 < a
          omega
        · exact h1 d hd
  · rcases Memory.mem_place hc with rfl | hc
    · exact ⟨ha, hv⟩
    · exact h.2 c hc

/-- A write inside memory keeps the canonical form. -/
theorem Memory.wf_write {m : Memory} (h : m.wf) {a : Nat} (ha : a < memorySize) (v : Byte) : (m.write a v).wf := by
  unfold Memory.write
  split
  · exact Memory.wf_remove h a
  · rename_i hv
    exact Memory.wf_place (Memory.wf_remove h a) (Memory.free_remove m a) ha hv

/-- Writing bytes in a row inside memory keeps the canonical form. -/
theorem Memory.wf_writeBytes (bs : List Byte) :
    ∀ {m : Memory} {a : Nat}, m.wf → a + bs.length ≤ memorySize → (m.writeBytes a bs).wf := by
  induction bs with
  | nil => intro m a h _; exact h
  | cons v bs ih =>
    intro m a h hle
    simp only [List.length_cons] at hle
    exact ih (Memory.wf_write h (by omega) v) (by omega)

/-- The empty list, the memory of reset, is in canonical form. -/
theorem Memory.wf_nil : Memory.wf [] := ⟨List.Pairwise.nil, fun c hc => by cases hc⟩

/-- The memory after reset is in its canonical form, for every `PROGRAM_BASE`. -/
theorem State.resetAt_mem_wf (base : ProgramBase) : (State.resetAt base).mem.wf := Memory.wf_nil

/-- The memory after reset is in its canonical form. -/
theorem State.reset_mem_wf : State.reset.mem.wf := State.resetAt_mem_wf _

end Sys2Proof.Machine
end

