-- ==== Sys2Proof/Laws/Ops.lean ====
section
/-! SUPPORT. What each shared operation can do, said once; and what an instruction can do, said once over all sixteen
(`exec_outcome`). Proofs cite these instead of unfolding the operations. -/

namespace Sys2Proof.Machine

/-! ### Memory accesses -/

theorem inRange2_iff (a : Word) : inRange a 2 = true ↔ a.toNat ≤ 4094 := by
  simp only [inRange, decide_eq_true_eq]; omega

theorem inRange4_iff (a : Word) : inRange a 4 = true ↔ a.toNat ≤ 4092 := by
  simp only [inRange, decide_eq_true_eq]; omega

theorem memRead2_ok (m : Memory) (a : Word) (h : a.toNat ≤ 4094) :
    memRead2 m a = .ok (joinBytes (m.read a.toNat) (m.read (a.toNat + 1))) := by
  rw [memRead2, if_pos ((inRange2_iff a).mpr h)]

theorem memRead2_error (m : Memory) (a : Word) (h : 4094 < a.toNat) : memRead2 m a = .error (.addressOutOfRange a) := by
  rw [memRead2, if_neg (fun hr => by have := (inRange2_iff a).mp hr; omega)]

theorem memRead4_ok (m : Memory) (a : Word) (h : a.toNat ≤ 4092) :
    memRead4 m a = .ok (m.read a.toNat, m.read (a.toNat + 1), m.read (a.toNat + 2), m.read (a.toNat + 3)) := by
  rw [memRead4, if_pos ((inRange4_iff a).mpr h)]

theorem memRead4_error (m : Memory) (a : Word) (h : 4092 < a.toNat) : memRead4 m a = .error (.addressOutOfRange a) := by
  rw [memRead4, if_neg (fun hr => by have := (inRange4_iff a).mp hr; omega)]

theorem memWrite2_ok (m : Memory) (a v : Word) (h : a.toNat ≤ 4094) :
    memWrite2 m a v = .ok ((m.write a.toNat (highByte v)).write (a.toNat + 1) (lowByte v)) := by
  rw [memWrite2, if_pos ((inRange2_iff a).mpr h)]

theorem memWrite2_error (m : Memory) (a v : Word) (h : 4094 < a.toNat) :
    memWrite2 m a v = .error (.addressOutOfRange a) := by
  rw [memWrite2, if_neg (fun hr => by have := (inRange2_iff a).mp hr; omega)]

/-- The two bytes a 16-bit write leaves, and the frame of the write. -/
theorem read_writeWord (m : Memory) (a b : Nat) (v : Word) :
    ((m.write a (highByte v)).write (a + 1) (lowByte v)).read b =
      if b = a then highByte v else if b = a + 1 then lowByte v else m.read b := by
  rw [Memory.read_write, Memory.read_write]
  split <;> split <;> first | rfl | omega

/-- A 16-bit write inside memory keeps the canonical form. -/
theorem wf_writeWord {m : Memory} (h : m.wf) {a : Nat} (ha : a ≤ 4094) (v : Word) :
    ((m.write a (highByte v)).write (a + 1) (lowByte v)).wf :=
  Memory.wf_write (Memory.wf_write h (by unfold memorySize; omega) _) (by unfold memorySize; omega) _

/-! ### The stack -/

theorem push_ok (s : State) (v : Word) (h : s.pushAddr.toNat ≤ 4094) :
    push s v = .ok ((s.setMem ((s.mem.write s.pushAddr.toNat (highByte v)).write (s.pushAddr.toNat + 1) (lowByte v))).setSp
      s.pushAddr) := by
  rw [push, memWrite2_ok _ _ _ h]

theorem push_error (s : State) (v : Word) (h : 4094 < s.pushAddr.toNat) :
    push s v = .error (.addressOutOfRange s.pushAddr) := by
  rw [push, memWrite2_error _ _ _ h]

theorem pop_ok (s : State) (h : s.sp.toNat ≤ 4094) :
    pop s = .ok (joinBytes (s.mem.read s.sp.toNat) (s.mem.read (s.sp.toNat + 1)), s.setSp (s.sp + 2#16)) := by
  rw [pop, memRead2_ok _ _ h]
  have : narrow ((s.sp.toNat : Int) + 2) = s.sp + 2#16 := by
    apply BitVec.eq_of_toNat_eq
    have hn := narrow_toNat ((s.sp.toNat : Int) + 2)
    rw [BitVec.toNat_add]
    simp only [BitVec.toNat_ofNat]
    omega
  simp only [this]

theorem pop_error (s : State) (h : 4094 < s.sp.toNat) : pop s = .error (.addressOutOfRange s.sp) := by
  rw [pop, memRead2_error _ _ h]

/-! ### Raising, and the poll -/

@[simp] theorem orRaise_ok {α : Type} (s : State) (a : α) (k : α → State) : orRaise s (.ok a) k = .next (k a) := rfl

@[simp] theorem orRaise_error {α : Type} (s : State) (e : ExecError) (k : α → State) :
    orRaise s (.error e) k = .next (raise s e) := rfl

theorem service2_eq (s : State) : service2 s = s.consumePoll.setReg .r0 (pollValue s.pollAnswer) := rfl

/-- INT by its number, the error case as one condition (R115, R121). -/
theorem execInt_unknown (rx ry : Reg) (imm : Word) (s : State) (h : 4 ≤ imm.toNat) :
    execInt rx ry imm s = .next (raise s (.unknownInterrupt imm)) := by
  unfold execInt
  split <;> first | omega | rfl

/-- The 16-bit numbers INT tells apart (R115). -/
theorem int_number_cases (v : Word) : v = 0#16 ∨ v = 1#16 ∨ v = 2#16 ∨ v = 3#16 ∨ 4 ≤ v.toNat := by
  have h : v.toNat = 0 ∨ v.toNat = 1 ∨ v.toNat = 2 ∨ v.toNat = 3 ∨ 4 ≤ v.toNat := by omega
  rcases h with h | h | h | h | h
  · exact .inl (BitVec.eq_of_toNat_eq h)
  · exact .inr (.inl (BitVec.eq_of_toNat_eq h))
  · exact .inr (.inr (.inl (BitVec.eq_of_toNat_eq h)))
  · exact .inr (.inr (.inr (.inl (BitVec.eq_of_toNat_eq h))))
  · exact .inr (.inr (.inr (.inr h)))

/-- Two equal next states. -/
theorem next_inj {s t : State} (h : (.next s : Host.Outcome State Fault Refusal) = .next t) : s = t := by
  cases h; rfl

/-! ### The instructions with an access, by whether it is in range -/

theorem execLoad_ok (x y : Reg) (v : Word) (s : State) (h : v.toNat ≤ 4094) :
    execLoad x y v s = .next (s.setReg x (joinBytes (s.mem.read v.toNat) (s.mem.read (v.toNat + 1)))).advance := by
  rw [execLoad, memRead2_ok _ _ h, orRaise_ok]

theorem execLoad_error (x y : Reg) (v : Word) (s : State) (h : 4094 < v.toNat) :
    execLoad x y v s = .next (raise s (.addressOutOfRange v)) := by
  rw [execLoad, memRead2_error _ _ h, orRaise_error]

theorem execStore_ok (x y : Reg) (v : Word) (s : State) (h : v.toNat ≤ 4094) :
    execStore x y v s = .next (s.setMem ((s.mem.write v.toNat (highByte (s.reg x))).write (v.toNat + 1)
      (lowByte (s.reg x)))).advance := by
  rw [execStore, memWrite2_ok _ _ _ h, orRaise_ok]

theorem execStore_error (x y : Reg) (v : Word) (s : State) (h : 4094 < v.toNat) :
    execStore x y v s = .next (raise s (.addressOutOfRange v)) := by
  rw [execStore, memWrite2_error _ _ _ h, orRaise_error]

theorem execCall_ok (x y : Reg) (v : Word) (s : State) (h : s.pushAddr.toNat ≤ 4094) :
    execCall x y v s = .next (((s.setMem ((s.mem.write s.pushAddr.toNat (highByte s.nextPc)).write (s.pushAddr.toNat + 1)
      (lowByte s.nextPc))).setSp s.pushAddr).setPc v) := by
  rw [execCall, push_ok _ _ h, orRaise_ok]

theorem execCall_error (x y : Reg) (v : Word) (s : State) (h : 4094 < s.pushAddr.toNat) :
    execCall x y v s = .next (raise s (.addressOutOfRange s.pushAddr)) := by
  rw [execCall, push_error _ _ h, orRaise_error]

theorem execRet_ok (x y : Reg) (v : Word) (s : State) (h : s.sp.toNat ≤ 4094) :
    execRet x y v s = .next ((s.setSp (s.sp + 2#16)).setPc
      (joinBytes (s.mem.read s.sp.toNat) (s.mem.read (s.sp.toNat + 1)))) := by
  rw [execRet, pop_ok _ h, orRaise_ok]

theorem execRet_error (x y : Reg) (v : Word) (s : State) (h : 4094 < s.sp.toNat) :
    execRet x y v s = .next (raise s (.addressOutOfRange s.sp)) := by
  rw [execRet, pop_error _ h, orRaise_error]

theorem execPush_ok (x y : Reg) (v : Word) (s : State) (h : s.pushAddr.toNat ≤ 4094) :
    execPush x y v s = .next ((s.setMem ((s.mem.write s.pushAddr.toNat (highByte (s.reg x))).write (s.pushAddr.toNat + 1)
      (lowByte (s.reg x)))).setSp s.pushAddr).advance := by
  rw [execPush, push_ok _ _ h, orRaise_ok]

theorem execPush_error (x y : Reg) (v : Word) (s : State) (h : 4094 < s.pushAddr.toNat) :
    execPush x y v s = .next (raise s (.addressOutOfRange s.pushAddr)) := by
  rw [execPush, push_error _ _ h, orRaise_error]

theorem execPop_ok (x y : Reg) (v : Word) (s : State) (h : s.sp.toNat ≤ 4094) :
    execPop x y v s = .next (((s.setSp (s.sp + 2#16)).setReg x
      (joinBytes (s.mem.read s.sp.toNat) (s.mem.read (s.sp.toNat + 1)))).advance) := by
  rw [execPop, pop_ok _ h, orRaise_ok]

theorem execPop_error (x y : Reg) (v : Word) (s : State) (h : 4094 < s.sp.toNat) :
    execPop x y v s = .next (raise s (.addressOutOfRange s.sp)) := by
  rw [execPop, pop_error _ h, orRaise_error]

/-! ### Any instruction -/

/-- What an instruction that completes can do to the state, whichever it is: the sequencer's counters, limit and error are
kept; it keeps `running` or halts as INT 0; memory is kept or one word inside it is written; `sp` is kept or moves by one
word as a push or a pop inside memory moves it. -/
structure Completed (s t : State) : Prop where
  nopCount : t.nopCount = s.nopCount
  execCount : t.execCount = s.execCount
  limit : t.limit = s.limit
  error : t.error = s.error
  run : (t.running = s.running ∧ t.haltCause = s.haltCause) ∨ (t.running = false ∧ t.haltCause = some .intHalt)
  mem : t.mem = s.mem ∨ ∃ (a v : Word), a.toNat ≤ 4094 ∧
    t.mem = (s.mem.write a.toNat (highByte v)).write (a.toNat + 1) (lowByte v)
  sp : t.sp = s.sp ∨ (t.sp = s.pushAddr ∧ s.pushAddr.toNat ≤ 4094) ∨ (t.sp = s.sp + 2#16 ∧ s.sp.toNat ≤ 4094)

/-- The errors an instruction of its own can raise (R152, stage 3). -/
def OwnError (e : ExecError) : Prop :=
  (∃ c : Word, e = .unknownInterrupt c ∧ 4 ≤ c.toNat) ∨ (∃ a : Word, e = .addressOutOfRange a ∧ 4095 ≤ a.toNat)

/-- What an instruction can do: it answers a next state, which is the state as it was with an error of its own latched, or
one that a completed instruction leaves. -/
theorem exec_outcome (i : Instr) (s : State) :
    ∃ t, exec i s = .next t ∧ ((∃ e, OwnError e ∧ t = raise s e) ∨ Completed s t) := by
  cases i with
  | mov x y v => exact ⟨_, rfl, .inr ⟨rfl, rfl, rfl, rfl, .inl ⟨rfl, rfl⟩, .inl rfl, .inl rfl⟩⟩
  | add x y v => exact ⟨_, rfl, .inr ⟨rfl, rfl, rfl, rfl, .inl ⟨rfl, rfl⟩, .inl rfl, .inl rfl⟩⟩
  | sub x y v => exact ⟨_, rfl, .inr ⟨rfl, rfl, rfl, rfl, .inl ⟨rfl, rfl⟩, .inl rfl, .inl rfl⟩⟩
  | mul x y v => exact ⟨_, rfl, .inr ⟨rfl, rfl, rfl, rfl, .inl ⟨rfl, rfl⟩, .inl rfl, .inl rfl⟩⟩
  | div x y v =>
    simp only [exec, execDiv]
    split <;> exact ⟨_, rfl, .inr ⟨rfl, rfl, rfl, rfl, .inl ⟨rfl, rfl⟩, .inl rfl, .inl rfl⟩⟩
  | jmp x y v => exact ⟨_, rfl, .inr ⟨rfl, rfl, rfl, rfl, .inl ⟨rfl, rfl⟩, .inl rfl, .inl rfl⟩⟩
  | jeq x y v => exact ⟨_, rfl, .inr ⟨rfl, rfl, rfl, rfl, .inl ⟨rfl, rfl⟩, .inl rfl, .inl rfl⟩⟩
  | jne x y v => exact ⟨_, rfl, .inr ⟨rfl, rfl, rfl, rfl, .inl ⟨rfl, rfl⟩, .inl rfl, .inl rfl⟩⟩
  | extended x y v => exact ⟨_, rfl, .inr ⟨rfl, rfl, rfl, rfl, .inl ⟨rfl, rfl⟩, .inl rfl, .inl rfl⟩⟩
  | load x y v =>
    by_cases h : v.toNat ≤ 4094
    · exact ⟨_, execLoad_ok x y v s h,
        .inr ⟨rfl, rfl, rfl, rfl, .inl ⟨rfl, rfl⟩, .inl rfl, .inl rfl⟩⟩
    · exact ⟨_, execLoad_error x y v s (by omega), .inl ⟨_, .inr ⟨_, rfl, by omega⟩, rfl⟩⟩
  | store x y v =>
    by_cases h : v.toNat ≤ 4094
    · exact ⟨_, execStore_ok x y v s h,
        .inr ⟨rfl, rfl, rfl, rfl, .inl ⟨rfl, rfl⟩, .inr ⟨v, _, h, rfl⟩, .inl rfl⟩⟩
    · exact ⟨_, execStore_error x y v s (by omega), .inl ⟨_, .inr ⟨_, rfl, by omega⟩, rfl⟩⟩
  | call x y v =>
    by_cases h : s.pushAddr.toNat ≤ 4094
    · exact ⟨_, execCall_ok x y v s h,
        .inr ⟨rfl, rfl, rfl, rfl, .inl ⟨rfl, rfl⟩, .inr ⟨s.pushAddr, _, h, rfl⟩, .inr (.inl ⟨rfl, h⟩)⟩⟩
    · exact ⟨_, execCall_error x y v s (by omega), .inl ⟨_, .inr ⟨_, rfl, by omega⟩, rfl⟩⟩
  | push x y v =>
    by_cases h : s.pushAddr.toNat ≤ 4094
    · exact ⟨_, execPush_ok x y v s h,
        .inr ⟨rfl, rfl, rfl, rfl, .inl ⟨rfl, rfl⟩, .inr ⟨s.pushAddr, _, h, rfl⟩, .inr (.inl ⟨rfl, h⟩)⟩⟩
    · exact ⟨_, execPush_error x y v s (by omega), .inl ⟨_, .inr ⟨_, rfl, by omega⟩, rfl⟩⟩
  | ret x y v =>
    by_cases h : s.sp.toNat ≤ 4094
    · exact ⟨_, execRet_ok x y v s h,
        .inr ⟨rfl, rfl, rfl, rfl, .inl ⟨rfl, rfl⟩, .inl rfl, .inr (.inr ⟨rfl, h⟩)⟩⟩
    · exact ⟨_, execRet_error x y v s (by omega), .inl ⟨_, .inr ⟨_, rfl, by omega⟩, rfl⟩⟩
  | pop x y v =>
    by_cases h : s.sp.toNat ≤ 4094
    · exact ⟨_, execPop_ok x y v s h,
        .inr ⟨rfl, rfl, rfl, rfl, .inl ⟨rfl, rfl⟩, .inl rfl, .inr (.inr ⟨rfl, h⟩)⟩⟩
    · exact ⟨_, execPop_error x y v s (by omega), .inl ⟨_, .inr ⟨_, rfl, by omega⟩, rfl⟩⟩
  | int x y v =>
    simp only [exec]
    by_cases h : 4 ≤ v.toNat
    · exact ⟨_, execInt_unknown x y v s h, .inl ⟨_, .inl ⟨v, rfl, h⟩, rfl⟩⟩
    · have h4 : v.toNat = 0 ∨ v.toNat = 1 ∨ v.toNat = 2 ∨ v.toNat = 3 := by omega
      unfold execInt
      rcases h4 with h0 | h0 | h0 | h0 <;> simp only [h0]
      · exact ⟨_, rfl, .inr ⟨rfl, rfl, rfl, rfl, .inr ⟨rfl, rfl⟩, .inl rfl, .inl rfl⟩⟩
      · exact ⟨_, rfl, .inr ⟨rfl, rfl, rfl, rfl, .inl ⟨rfl, rfl⟩, .inl rfl, .inl rfl⟩⟩
      · refine ⟨_, rfl, .inr ?_⟩
        rw [service2_eq]
        exact ⟨rfl, rfl, rfl, rfl, .inl ⟨rfl, rfl⟩, .inl rfl, .inl rfl⟩
      · exact ⟨_, rfl, .inr ⟨rfl, rfl, rfl, rfl, .inl ⟨rfl, rfl⟩, .inl rfl, .inl rfl⟩⟩

end Sys2Proof.Machine
end

