-- ==== Sys2Proof/Laws/PerInstr.lean ====
section
/-! SUPPORT. The per-instruction family: what holds of every instruction as syntax, one lemma per constructor. -/

namespace Sys2Proof

/-- Every `Instr` is well formed: its fields are typed, and there is no illegal instruction (spec 30_encoding.md R58). -/
theorem Laws.instr_wellFormed (i : Instr) : i.wellFormed = true := by
  have hx : i.rx.number < 4 := by cases i.rx <;> decide
  have hy : i.ry.number < 4 := by cases i.ry <;> decide
  have hv : i.imm.toNat < 65536 := i.imm.isLt
  simp [Instr.wellFormed, hx, hy, hv]

/-- The codec fields of every instruction are in range (R51). -/
theorem Laws.fields_wellFormed (i : Instr) : i.fields.wellFormed = true := by
  have ho : i.opcode < 16 := by cases i <;> simp [Instr.opcode]
  have hx : i.rx.number < 4 := by cases i.rx <;> decide
  have hy : i.ry.number < 4 := by cases i.ry <;> decide
  have hv : i.imm.toNat < 65536 := i.imm.isLt
  simp [Instr.fields, Fields.wellFormed, Fields.opOk, Fields.rxOk, Fields.ryOk, Fields.immOk, ho, hx, hy, hv]

/-- An instruction and its codec fields are well formed, and it is emitted as four bytes of which the second is 0 (R50, R53,
R56). -/
def Laws.EncodingForm.Statement (i : Instr) : Prop :=
  i.wellFormed = true ∧ i.fields.wellFormed = true ∧ (encode i).length = 4 ∧ (encode i)[1]? = some 0#8

theorem Laws.EncodingForm.mov (rx ry : Reg) (imm : Word) : Laws.EncodingForm.Statement (.mov rx ry imm) :=
  ⟨Laws.instr_wellFormed _, Laws.fields_wellFormed _, rfl, rfl⟩

theorem Laws.EncodingForm.add (rx ry : Reg) (imm : Word) : Laws.EncodingForm.Statement (.add rx ry imm) :=
  ⟨Laws.instr_wellFormed _, Laws.fields_wellFormed _, rfl, rfl⟩

theorem Laws.EncodingForm.sub (rx ry : Reg) (imm : Word) : Laws.EncodingForm.Statement (.sub rx ry imm) :=
  ⟨Laws.instr_wellFormed _, Laws.fields_wellFormed _, rfl, rfl⟩

theorem Laws.EncodingForm.mul (rx ry : Reg) (imm : Word) : Laws.EncodingForm.Statement (.mul rx ry imm) :=
  ⟨Laws.instr_wellFormed _, Laws.fields_wellFormed _, rfl, rfl⟩

theorem Laws.EncodingForm.div (rx ry : Reg) (imm : Word) : Laws.EncodingForm.Statement (.div rx ry imm) :=
  ⟨Laws.instr_wellFormed _, Laws.fields_wellFormed _, rfl, rfl⟩

theorem Laws.EncodingForm.load (rx ry : Reg) (imm : Word) : Laws.EncodingForm.Statement (.load rx ry imm) :=
  ⟨Laws.instr_wellFormed _, Laws.fields_wellFormed _, rfl, rfl⟩

theorem Laws.EncodingForm.store (rx ry : Reg) (imm : Word) : Laws.EncodingForm.Statement (.store rx ry imm) :=
  ⟨Laws.instr_wellFormed _, Laws.fields_wellFormed _, rfl, rfl⟩

theorem Laws.EncodingForm.jmp (rx ry : Reg) (imm : Word) : Laws.EncodingForm.Statement (.jmp rx ry imm) :=
  ⟨Laws.instr_wellFormed _, Laws.fields_wellFormed _, rfl, rfl⟩

theorem Laws.EncodingForm.jeq (rx ry : Reg) (imm : Word) : Laws.EncodingForm.Statement (.jeq rx ry imm) :=
  ⟨Laws.instr_wellFormed _, Laws.fields_wellFormed _, rfl, rfl⟩

theorem Laws.EncodingForm.jne (rx ry : Reg) (imm : Word) : Laws.EncodingForm.Statement (.jne rx ry imm) :=
  ⟨Laws.instr_wellFormed _, Laws.fields_wellFormed _, rfl, rfl⟩

theorem Laws.EncodingForm.call (rx ry : Reg) (imm : Word) : Laws.EncodingForm.Statement (.call rx ry imm) :=
  ⟨Laws.instr_wellFormed _, Laws.fields_wellFormed _, rfl, rfl⟩

theorem Laws.EncodingForm.ret (rx ry : Reg) (imm : Word) : Laws.EncodingForm.Statement (.ret rx ry imm) :=
  ⟨Laws.instr_wellFormed _, Laws.fields_wellFormed _, rfl, rfl⟩

theorem Laws.EncodingForm.push (rx ry : Reg) (imm : Word) : Laws.EncodingForm.Statement (.push rx ry imm) :=
  ⟨Laws.instr_wellFormed _, Laws.fields_wellFormed _, rfl, rfl⟩

theorem Laws.EncodingForm.pop (rx ry : Reg) (imm : Word) : Laws.EncodingForm.Statement (.pop rx ry imm) :=
  ⟨Laws.instr_wellFormed _, Laws.fields_wellFormed _, rfl, rfl⟩

theorem Laws.EncodingForm.int (rx ry : Reg) (imm : Word) : Laws.EncodingForm.Statement (.int rx ry imm) :=
  ⟨Laws.instr_wellFormed _, Laws.fields_wellFormed _, rfl, rfl⟩

theorem Laws.EncodingForm.extended (rx ry : Reg) (imm : Word) : Laws.EncodingForm.Statement (.extended rx ry imm) :=
  ⟨Laws.instr_wellFormed _, Laws.fields_wellFormed _, rfl, rfl⟩

end Sys2Proof
end

