-- ==== Sys2Proof/Laws/Step.lean ====
section
/-! SUPPORT. What the parts of a step, and a step, can do. -/

namespace Sys2Proof.Machine

/-- A fetch that succeeds has its four bytes inside memory and decodes them. -/
theorem fetch_ok_inv {s : State} {i : Instr} (h : fetch s = .ok i) :
    s.pc.toNat ≤ 4092 ∧ i = decode (s.mem.read s.pc.toNat) (s.mem.read (s.pc.toNat + 1)) (s.mem.read (s.pc.toNat + 2))
      (s.mem.read (s.pc.toNat + 3)) := by
  by_cases hp : s.pc.toNat ≤ 4092
  · rw [fetch, memRead4_ok _ _ hp] at h
    exact ⟨hp, by simpa using h.symm⟩
  · rw [fetch, memRead4_error _ _ (by omega)] at h
    cases h

/-- A fetch that is refused records `pc`, which leaves fewer than four bytes to read. -/
theorem fetch_error_inv {s : State} {e : ExecError} (h : fetch s = .error e) :
    4092 < s.pc.toNat ∧ e = .addressOutOfRange s.pc := by
  by_cases hp : s.pc.toNat ≤ 4092
  · rw [fetch, memRead4_ok _ _ hp] at h
    cases h
  · rw [fetch, memRead4_error _ _ (by omega)] at h
    exact ⟨by omega, by simpa using h.symm⟩

theorem isRunawayPattern_iff (i : Instr) : isRunawayPattern i = true ↔ i = .mov .r0 .r0 0#16 := by
  simp [isRunawayPattern]

/-- The guard's update, with its test as an equation (R74). -/
theorem guardCount_eq (i : Instr) (s : State) :
    guardCount i s = { s with nopCount := if i = .mov .r0 .r0 0#16 then s.nopCount + 1 else 0 } := by
  unfold guardCount
  simp only [isRunawayPattern_iff]

/-- The guard raises on the counted instruction when one was counted just before. -/
theorem guardRaises_iff (i : Instr) (s : State) : guardRaises i s = true ↔ i = .mov .r0 .r0 0#16 ∧ 1 ≤ s.nopCount := by
  unfold guardRaises
  rw [Bool.and_eq_true, isRunawayPattern_iff, guardCount_nopCount]
  constructor
  · rintro ⟨rfl, h⟩
    have := of_decide_eq_true h
    rw [if_pos ((isRunawayPattern_iff _).mpr rfl)] at this
    exact ⟨rfl, by omega⟩
  · rintro ⟨rfl, h⟩
    refine ⟨rfl, decide_eq_true ?_⟩
    rw [if_pos ((isRunawayPattern_iff _).mpr rfl)]
    omega

/-- The end-of-memory test (R78). -/
theorem pastEnd_iff (s : State) : pastEnd s = true ↔ s.running = true ∧ memorySize ≤ s.pc.toNat := by
  unfold pastEnd
  rw [Bool.and_eq_true]
  exact and_congr_right fun _ => ⟨of_decide_eq_true, decide_eq_true⟩

/-- The limit test (R77). -/
theorem limitReached_iff (s : State) : limitReached s = true ↔ ∃ n, s.limit = some n ∧ n ≤ s.execCount := by
  unfold limitReached
  cases h : s.limit with
  | none => simp
  | some n => exact ⟨fun hd => ⟨n, rfl, of_decide_eq_true hd⟩, fun ⟨m, hm, hd⟩ => by cases hm; exact decide_eq_true hd⟩

/-- What the end of a step can do to the state an instruction left. -/
theorem endOfStep_cases (u : State) :
    (u.error.isSome = true ∧ endOfStep u = u) ∨
    (u.error = none ∧ limitReached (countInstr u) = true ∧
      endOfStep u = raise (countInstr u) .instructionLimitExceeded) ∨
    (u.error = none ∧ limitReached (countInstr u) = false ∧ u.running = true ∧ memorySize ≤ u.pc.toNat ∧
      endOfStep u = halt (countInstr u) .endOfMemory) ∨
    (u.error = none ∧ limitReached (countInstr u) = false ∧ (u.running = true → u.pc.toNat < memorySize) ∧
      endOfStep u = countInstr u) := by
  unfold endOfStep
  by_cases he : u.error.isSome = true
  · exact .inl ⟨he, if_pos he⟩
  · rw [if_neg he]
    have hn : u.error = none := by simpa using he
    unfold checks
    by_cases hl : limitReached (countInstr u) = true
    · exact .inr (.inl ⟨hn, hl, if_pos hl⟩)
    · rw [if_neg hl]
      have hl' : limitReached (countInstr u) = false := by simpa using hl
      by_cases hp : pastEnd (countInstr u) = true
      · rw [if_pos hp]
        obtain ⟨h1, h2⟩ := (pastEnd_iff _).mp hp
        exact .inr (.inr (.inl ⟨hn, hl', h1, h2, rfl⟩))
      · rw [if_neg hp]
        refine .inr (.inr (.inr ⟨hn, hl', fun hr => ?_, rfl⟩))
        exact Nat.lt_of_not_le fun hle => hp ((pastEnd_iff _).mpr ⟨hr, hle⟩)

/-- What a step can do: nothing (a stopped machine), a refused fetch, the guard's error, or the instruction and the end of
the step. -/
theorem step_cases {s t : State} (h : step s = .next t) :
    (s.running = false ∧ t = s) ∨
    (s.running = true ∧ 4092 < s.pc.toNat ∧ t = raise s (.addressOutOfRange s.pc)) ∨
    (s.running = true ∧ 1 ≤ s.nopCount ∧ fetch s = .ok (.mov .r0 .r0 0#16) ∧
      t = raise (guardCount (.mov .r0 .r0 0#16) s) .runawayExecution) ∨
    (s.running = true ∧ ∃ i u, fetch s = .ok i ∧ ¬ (i = .mov .r0 .r0 0#16 ∧ 1 ≤ s.nopCount) ∧
      exec i (guardCount i s) = .next u ∧ t = endOfStep u) := by
  unfold step cycle at h
  by_cases hr : s.running = true
  · rw [if_pos hr] at h
    cases hf : fetch s with
    | error e =>
      rw [hf] at h
      obtain ⟨hp, rfl⟩ := fetch_error_inv hf
      exact .inr (.inl ⟨hr, hp, by simpa using h.symm⟩)
    | ok i =>
      rw [hf] at h
      simp only at h
      by_cases hg : guardRaises i s = true
      · rw [if_pos hg] at h
        obtain ⟨rfl, hn⟩ := (guardRaises_iff i s).mp hg
        exact .inr (.inr (.inl ⟨hr, hn, rfl, by simpa using h.symm⟩))
      · rw [if_neg hg] at h
        obtain ⟨u, hu, -⟩ := exec_outcome i (guardCount i s)
        rw [hu] at h
        exact .inr (.inr (.inr ⟨hr, i, u, rfl, fun hc => hg ((guardRaises_iff i s).mpr hc), hu, by simpa [finish] using h.symm⟩))
  · rw [if_neg hr] at h
    exact .inl ⟨by simpa using hr, by simpa using h.symm⟩

end Sys2Proof.Machine
end

