-- ==== Sys2Proof/Tests/Slice0.lean ====
section
/-! SUPPORT. Tests, each expected value taken from spec 95_test_vectors.md (the section is named at each group), and the
witnesses: for every statement with hypotheses, a concrete state and operands that meet them together. -/

namespace Sys2Proof.Tests

open Sys2Proof.Machine

/-- A running machine, otherwise as after reset, at address `a` with `code` there. -/
def running (a : Word) (code : List Byte) : State :=
  { State.reset with pc := a, running := true, mem := Memory.writeBytes [] a.toNat code }

/-- The same machine with bytes written from address `a`. -/
def poke (a : Nat) (bytes : List Byte) (s : State) : State := { s with mem := s.mem.writeBytes a bytes }

/-- The same machine with the four registers set. -/
def regs (r0 r1 r2 r3 : Word) (s : State) : State := { s with regs := { r0 := r0, r1 := r1, r2 := r2, r3 := r3 } }

/-- The outcome is a next state of which `p` says yes. -/
def after (o : Host.Outcome State Fault Refusal) (p : State → Bool) : Bool :=
  match o with
  | .next t => p t
  | .fault _ => false
  | .refused _ => false

/-! ### Well-formedness: an ill-formed term for each check (30_encoding.md R51, R53) -/

theorem test_wf_accepts : Fields.wellFormed { op := 15, rx := 3, ry := 3, imm := 65535 } = true := by decide
theorem test_wf_refuses_op : Fields.wellFormed { op := 16, rx := 0, ry := 0, imm := 0 } = false := by decide
theorem test_wf_refuses_rx : Fields.wellFormed { op := 0, rx := 4, ry := 0, imm := 0 } = false := by decide
theorem test_wf_refuses_ry : Fields.wellFormed { op := 0, rx := 0, ry := 4, imm := 0 } = false := by decide
theorem test_wf_refuses_imm : Fields.wellFormed { op := 0, rx := 0, ry := 0, imm := 65536 } = false := by decide
theorem test_decode_refuses_short :
    (match decodeBytes [0xE0, 0x00, 0x00] with | .ok _ => false | .error e => decide (e = .tooShort)) = true := by decide

/-! ### Decoding: a word written out from the encoding for every constructor (section 2.1, S1, and 2.2 to 2.10) -/

theorem test_decode_mov : decode 0x0D 0x00 0x80 0x00 = .mov .r3 .r1 0x8000 := by decide
theorem test_decode_add : decode 0x11 0x00 0x00 0x00 = .add .r0 .r1 0 := by decide
theorem test_decode_sub : decode 0x26 0x00 0x00 0x00 = .sub .r1 .r2 0 := by decide
theorem test_decode_mul : decode 0x3A 0x00 0x00 0x00 = .mul .r2 .r2 0 := by decide
theorem test_decode_div : decode 0x46 0x00 0x00 0x00 = .div .r1 .r2 0 := by decide
theorem test_decode_load : decode 0x5B 0x7E 0x12 0x34 = .load .r2 .r3 0x1234 := by decide
theorem test_decode_store : decode 0x6C 0x01 0x0F 0xFE = .store .r3 .r0 0x0FFE := by decide
theorem test_decode_jmp : decode 0x7F 0x00 0x80 0x00 = .jmp .r3 .r3 0x8000 := by decide
theorem test_decode_jeq : decode 0x81 0x00 0xFF 0xF8 = .jeq .r0 .r1 0xFFF8 := by decide
theorem test_decode_jne : decode 0x92 0x00 0xFF 0xF4 = .jne .r0 .r2 0xFFF4 := by decide
theorem test_decode_call : decode 0xA0 0x00 0x00 0x1C = .call .r0 .r0 28 := by decide
theorem test_decode_ret : decode 0xB5 0xA5 0x5A 0x5A = .ret .r1 .r1 0x5A5A := by decide
theorem test_decode_push : decode 0xC4 0x00 0x00 0x00 = .push .r1 .r0 0 := by decide
theorem test_decode_pop : decode 0xD8 0x00 0x00 0x00 = .pop .r2 .r0 0 := by decide
theorem test_decode_int : decode 0xE0 0x00 0x00 0x01 = .int .r0 .r0 1 := by decide
theorem test_decode_extended : decode 0xFF 0xFF 0xFF 0xFF = .extended .r3 .r3 0xFFFF := by decide

/-- Section 2.1: `W = b0<<24 | b1<<16 | b2<<8 | b3`, the numbering of the opcode table. -/
theorem test_table_word : decodeTableWord 32 0x5B7E1234 = some (.load .r2 .r3 0x1234) := by decide
/-- S1: "`encode(17, 5, 6)` = `encode(1, 1, 2)` = 0x16". -/
theorem test_encode_masks : encodeByte0 17 5 6 = 0x16 := by decide
/-- Section 2.1 read backwards, the reserved byte written as 0 (R53). -/
theorem test_encode_store : encode (.store .r3 .r0 0x0FFE) = [0x6C, 0x00, 0x0F, 0xFE] := by decide
/-- S2, first row: `offset = 12 - (20 + 4)`, operand bytes `FF F4`. -/
theorem test_rel_offset : relOffset 20 12 = 0xFFF4 := by decide

/-! ### One step of each instruction (sections 2.2 to 2.10) -/

theorem test_mov_field_selects :
    after (step (regs 77 5 0 0 (running 0 [0x04, 0x00, 0x00, 0x00])))
      (fun t => t.regs == ⟨77, 0, 0, 0⟩ && t.pc == 4 && t.execCount == 1) = true := by decide
theorem test_mov_register :
    after (step (regs 0 0xBEEF 0 0 (running 0 [0x09, 0x00, 0x12, 0x34]))) (fun t => t.regs == ⟨0, 0xBEEF, 0xBEEF, 0⟩) = true := by
  decide
theorem test_add_wraps :
    after (step (regs 0xFFFF 1 0 0 (running 0 [0x11, 0x00, 0x00, 0x00]))) (fun t => t.regs == ⟨0, 1, 0, 0⟩ && t.pc == 4) = true := by
  decide
theorem test_sub_borrows :
    after (step (regs 0 1 0 0 (running 0 [0x21, 0x00, 0x00, 0x00]))) (fun t => t.regs == ⟨0xFFFF, 1, 0, 0⟩) = true := by decide
theorem test_mul_low_word :
    after (step (regs 0x012C 0x012C 0 0 (running 0 [0x31, 0x00, 0x00, 0x00]))) (fun t => t.reg .r0 == 0x5F90) = true := by decide
theorem test_div_unsigned :
    after (step (regs 0 0xFFFE 2 0 (running 0 [0x46, 0x00, 0x00, 0x00]))) (fun t => t.reg .r1 == 0x7FFF) = true := by decide
theorem test_div_by_zero :
    after (step (regs 0 7 0 0 (running 0 [0x46, 0x00, 0x00, 0x00])))
      (fun t => t.reg .r1 == 7 && t.pc == 4 && t.execCount == 1 && t.error == none) = true := by decide
theorem test_load_last_address :
    after (step (poke 4094 [0xAB, 0xCD] (running 0 [0x54, 0x00, 0x0F, 0xFE]))) (fun t => t.reg .r1 == 0xABCD) = true := by decide
theorem test_load_past_end :
    after (step (regs 0 9 0 0 (running 0 [0x54, 0x00, 0xFF, 0xFF])))
      (fun t => t.error == some (.addressOutOfRange 65535) && t.reg .r1 == 9 && t.pc == 0 && t.execCount == 0) = true := by decide
theorem test_store_big_endian :
    after (step (regs 0 0 0 0xBEEF (running 0 [0x6C, 0x00, 0x0F, 0xFE])))
      (fun t => t.mem.read 4094 == 0xBE && t.mem.read 4095 == 0xEF) = true := by decide
theorem test_store_past_end :
    after (step (regs 0 0 0 0xBEEF (running 0 [0x6C, 0x00, 0x0F, 0xFF])))
      (fun t => t.error == some (.addressOutOfRange 4095) && t.mem.read 4095 == 0) = true := by decide
theorem test_jmp_backward : after (step (running 20 [0x70, 0x00, 0xFF, 0xF4])) (fun t => t.pc == 12) = true := by decide
theorem test_jmp_wraps_below_zero :
    after (step (running 0 [0x70, 0x00, 0xFF, 0x9C]))
      (fun t => t.pc == 65440 && t.haltCause == some .endOfMemory && t.error == none && t.execCount == 1) = true := by decide
theorem test_jeq_taken : after (step (regs 5 5 0 0 (running 40 [0x81, 0x00, 0x00, 0x10]))) (fun t => t.pc == 60) = true := by decide
theorem test_jeq_all_bits :
    after (step (regs 0xFFFF 0x00FF 0 0 (running 40 [0x81, 0x00, 0x00, 0x10]))) (fun t => t.pc == 44) = true := by decide
theorem test_jne_taken : after (step (regs 5 6 0 0 (running 40 [0x91, 0x00, 0x00, 0x10]))) (fun t => t.pc == 60) = true := by decide
theorem test_jne_not_taken : after (step (regs 5 5 0 0 (running 40 [0x91, 0x00, 0x00, 0x10]))) (fun t => t.pc == 44) = true := by
  decide
theorem test_call_over_itself :
    after (step (running 4092 [0xA0, 0x00, 0x00, 0x40]))
      (fun t => t.mem == [(4092, 0xA0), (4093, 0x10), (4095, 0x40)] && t.sp == 4093 && t.pc == 64) = true := by decide
theorem test_call_no_room :
    after (step { running 0 [0xA0, 0x00, 0x00, 0x40] with sp := 1 })
      (fun t => t.error == some (.addressOutOfRange 65535) && t.sp == 1 && t.pc == 0) = true := by decide
theorem test_ret :
    after (step { poke 4093 [0x00, 0x10] (running 0 [0xBF, 0x12, 0x34, 0x56]) with sp := 4093 })
      (fun t => t.pc == 16 && t.sp == 4095) = true := by decide
theorem test_ret_empty :
    after (step (running 0 [0xB0, 0x00, 0x00, 0x00])) (fun t => t.error == some (.addressOutOfRange 4095) && t.sp == 4095) = true := by
  decide
theorem test_push :
    after (step (regs 0xABCD 0 0 0 (running 0 [0xC0, 0x00, 0x00, 0x00])))
      (fun t => t.sp == 4093 && t.mem == [(0, 0xC0), (4093, 0xAB), (4094, 0xCD)]) = true := by decide
theorem test_push_no_room :
    after (step { running 0 [0xC0, 0x00, 0x00, 0x00] with sp := 1 })
      (fun t => t.error == some (.addressOutOfRange 65535) && t.sp == 1 && t.execCount == 0) = true := by decide
theorem test_pop :
    after (step { poke 4091 [0x00, 0x06] (running 0 [0xD4, 0x00, 0x00, 0x00]) with sp := 4091 })
      (fun t => t.reg .r1 == 6 && t.sp == 4093) = true := by decide
theorem test_pop_empty :
    after (step (regs 0 0 3 0 (running 0 [0xD8, 0x00, 0x00, 0x00])))
      (fun t => t.error == some (.addressOutOfRange 4095) && t.reg .r2 == 3) = true := by decide
theorem test_int_unknown_all_bits :
    after (step (running 0 [0xE0, 0x00, 0x01, 0x00]))
      (fun t => t.error == some (.unknownInterrupt 256) && t.pc == 0 && t.execCount == 0 && t.output == []) = true := by decide
theorem test_int_input_and_output :
    after (step { regs 0x1234 0 0 0 (running 0 [0xE0, 0x00, 0x00, 0x02]) with input := [some 0xFF] })
      (fun t => t.reg .r0 == 0x00FF && t.input == []) = true ∧
    after (step (regs 0x1241 0 0 0 (running 0 [0xE0, 0x00, 0x00, 0x03])))
      (fun t => t.output == [.writeByte 0x41] && t.reg .r0 == 0x1241) = true := by decide
theorem test_extended :
    after (step (running 4092 [0xF5, 0x00, 0x12, 0x34]))
      (fun t => t.pc == 4096 && t.haltCause == some .endOfMemory && t.execCount == 1 && t.nopCount == 0) = true := by decide

/-! ### The step's own checks (section 2.11), each at its last step -/

/-- V-G1, second step. -/
theorem test_runaway :
    after (step { running 4 [] with nopCount := 1, execCount := 1 })
      (fun t => t.error == some .runawayExecution && t.pc == 4 && t.execCount == 1 && t.nopCount == 2) = true := by decide
/-- V-G3, first step: the reserved byte is not in the guard's tuple. -/
theorem test_guard_ignores_reserved :
    after (step (running 0 [0x00, 0x01, 0x00, 0x00])) (fun t => t.nopCount == 1 && t.error == none && t.pc == 4) = true := by decide
/-- V-G4, second step. -/
theorem test_extended_resets_guard :
    after (step { running 4 [0xF0, 0x00, 0x00, 0x00] with nopCount := 1 }) (fun t => t.nopCount == 0) = true := by decide
/-- V-L2, last step. -/
theorem test_limit_wins_over_halt :
    after (step { running 4 [0xE0, 0x00, 0x00, 0x00] with limit := some 2, execCount := 1 })
      (fun t => t.error == some .instructionLimitExceeded && t.haltCause == some .intHalt && t.execCount == 2 && t.pc == 8) = true := by
  decide
/-- V-L4. -/
theorem test_limit_zero :
    after (step { running 0 [0x04, 0x00, 0x00, 0x01] with limit := some 0 })
      (fun t => t.error == some .instructionLimitExceeded && t.execCount == 1 && t.pc == 4 && t.reg .r1 == 1) = true := by decide
/-- V-L5. -/
theorem test_aborted_is_not_counted :
    after (step { running 0 [0xE0, 0x00, 0x00, 0x04] with limit := some 1 })
      (fun t => t.error == some (.unknownInterrupt 4) && t.execCount == 0) = true := by decide
/-- V-E2. -/
theorem test_int_zero_at_end :
    after (step (running 4092 [0xE0, 0x00, 0x00, 0x00]))
      (fun t => t.haltCause == some .intHalt && t.pc == 4096 && t.execCount == 1 && !t.running) = true := by decide
/-- V-F2. -/
theorem test_fetch_past_end :
    after (step (running 4093 [])) (fun t => t.error == some (.addressOutOfRange 4093) && t.pc == 4093 && t.execCount == 0) = true := by
  decide
/-- V-F4: an unaligned fetch; section 2.9, service 1. -/
theorem test_unaligned_fetch :
    after (step (regs 24 0 0 0 (running 1 [0xE0, 0x00, 0x00, 0x01]))) (fun t => t.output == [.output 24] && t.pc == 5) = true := by
  decide
/-- R73: a trace record on the instruction the guard raises on, none for a refused fetch. -/
theorem test_trace_record :
    (traceRecord { running 4 [] with nopCount := 1 }).map TraceRecord.mnemonic = some "MOV" ∧ traceRecord (running 4093 []) = none := by
  decide

/-! ### The host's operations (section 2.12) and the word placed for a fetch -/

theorem test_load_at_end :
    after (hostMove 0 (.load [0xAA, 0xBB] (some 4094)) { State.reset with execCount := 7 })
      (fun t => t.mem == [(4094, 0xAA), (4095, 0xBB)] && t.execCount == 0) = true := by decide
theorem test_load_refused :
    (match hostMove 0 (.load [0xAA, 0xBB] (some 4095)) State.reset with
      | .refused r => decide (r = .loadPastEnd 4095 2) | .next _ => false | .fault _ => false) = true := by decide
theorem test_run_clears_error :
    after (hostMove 0 (.run (some 0)) { State.reset with error := some .runawayExecution, execCount := 1, nopCount := 2 })
      (fun t => t.error == none && t.running && t.execCount == 0 && t.nopCount == 0) = true := by decide
theorem test_run_while_running :
    (match hostMove 0 (.run) (running 0 []) with
      | .fault f => decide (f = .hostOpWhileRunning) | .next _ => false | .refused _ => false) = true := by decide
/-- R5, R129, R130: the instance's `PROGRAM_BASE` is the reset `pc`, the default load address and the default start. -/
theorem test_program_base :
    (State.resetAt 4092).pc = 4092 ∧
    after (hostMove 4092 (.load [0xAA]) (State.resetAt 4092)) (fun t => t.mem == [(4092, 0xAA)]) = true ∧
    after (hostMove 4092 .run State.reset) (fun t => t.pc == 4092 && t.running) = true ∧
    after (hostMove 4092 .reset (running 0 [])) (fun t => t.pc == 4092 && !t.running) = true := by decide
/-- The numbers of R145's table. -/
theorem test_error_codes :
    [none, some (.unknownInterrupt 4), some .runawayExecution, some .instructionLimitExceeded,
      some (.addressOutOfRange 4095)].map errorCode = [0, 1, 2, 3, 4] := by decide
/-- A table word placed at reset is the instruction the next step runs: `ADD R1, R1` would leave no trace, `MOV R0, #10` does. -/
theorem test_with_fetch_word :
    after (step (State.reset.withFetchWord 32 0x0000000A)) (fun t => t.reg .r0 == 10 && t.pc == 4 && t.running) = true := by decide

/-! ### Witnesses: the hypotheses of each statement, met together, at the boundary of each clause -/

theorem witness_CodecRoundTrip : 15 < 16 ∧ 3 < 4 ∧ 3 < 4 := by decide
theorem witness_MovWritesSource : Reg.r1 ≠ Reg.r0 := by decide
theorem witness_DivWritesQuotient :
    ((regs 9 1 0 0 State.reset).reg .r1).toNat ≠ 0 ∧ ((regs 9 1 0 0 State.reset).reg .r2).toNat = 0 := by decide
/-- The last address with a word and the first without. -/
theorem witness_LoadReadsWord : (4094#16).toNat ≤ 4094 ∧ 4094 < (4095#16).toNat := by decide
theorem witness_StoreWritesWord : (4094#16).toNat ≤ 4094 ∧ 4094 < (4095#16).toNat := by decide
theorem witness_LoadAfterStore : (4094#16).toNat ≤ 4094 := by decide
theorem witness_StoreIsSeenByFetch :
    (4094#16).toNat ≤ 4094 ∧ (4092#16).toNat ≤ 4092 ∧ ∃ t, exec (.store .r0 .r0 4094#16) (running 0 []) = .next t :=
  ⟨by decide, by decide, _, execStore_ok .r0 .r0 4094#16 (running 0 []) (by decide)⟩
theorem witness_JeqBranchesOnEqual :
    (regs 5 5 6 0 State.reset).reg .r0 = (regs 5 5 6 0 State.reset).reg .r1 ∧
    (regs 5 5 6 0 State.reset).reg .r0 ≠ (regs 5 5 6 0 State.reset).reg .r2 := by decide
theorem witness_JneBranchesOnUnequal :
    (regs 5 5 6 0 State.reset).reg .r0 ≠ (regs 5 5 6 0 State.reset).reg .r2 ∧
    (regs 5 5 6 0 State.reset).reg .r0 = (regs 5 5 6 0 State.reset).reg .r1 := by decide
theorem witness_CallPushesAndJumps :
    (State.pushAddr { State.reset with sp := 4096 }).toNat ≤ 4094 ∧ 4094 < (State.pushAddr { State.reset with sp := 4097 }).toNat ∧
    State.reset.pushAddr.toNat = 4093 := by decide
/-- The highest and lowest address a push may use, and the two next to them it may not. -/
theorem witness_PushWritesWord :
    (State.pushAddr { State.reset with sp := 4096 }).toNat = 4094 ∧ (State.pushAddr { State.reset with sp := 2 }).toNat = 0 ∧
    (State.pushAddr { State.reset with sp := 4097 }).toNat = 4095 ∧
    (State.pushAddr { State.reset with sp := 1 }).toNat = 65535 := by decide
theorem witness_RetPopsIntoPc :
    ({ State.reset with sp := 4094 } : State).sp.toNat ≤ 4094 ∧ 4094 < State.reset.sp.toNat := by decide
/-- The last stack pointer with a word, and the empty stack's. -/
theorem witness_PopReadsWord :
    ({ State.reset with sp := 4094 } : State).sp.toNat ≤ 4094 ∧ 4094 < State.reset.sp.toNat := by decide
theorem witness_RelativeTargetRange :
    (4092#16).toNat ≤ 4092 ∧ (0 : Int) ≤ ((4092#16).toNat : Int) + 4 + (0x7FFF#16).toInt ∧
    (0 : Int) ≤ ((0#16).toNat : Int) + 4 + (0xFFFC#16).toInt ∧ ((0#16).toNat : Int) + 4 + (0xFFFB#16).toInt < 0 := by decide
theorem witness_StackIsLifo : ∃ t, Claims.pushAll [0x1111, 0x2222, 0x3333] State.reset = .ok t := ⟨_, rfl⟩
theorem witness_IntTwoPolls :
    ({ State.reset with input := [some 0x41] } : State).input = some 0x41 :: [] ∧
    ({ State.reset with input := [none] } : State).input = none :: [] ∧ State.reset.input = [] := by decide
/-- Whatever the free answer is, one of the two clauses on it applies. -/
theorem witness_IntTwoPolls_free : (∃ b, Config.tryReadByte 0 = some b) ∨ Config.tryReadByte 0 = none := by
  cases Config.tryReadByte 0 with
  | none => exact .inr rfl
  | some b => exact .inl ⟨b, rfl⟩
theorem witness_IntUnknownRaises : 4 ≤ (4#16).toNat ∧ 4 ≤ (65535#16).toNat := by decide
theorem witness_RegistersReadAndWritten :
    Claims.writesReg (.add .r0 .r1 0#16) State.reset .r1 = false ∧ Claims.readsReg (.add .r0 .r1 0#16) .r2 = false ∧
    (∃ t, exec (.add .r0 .r1 0#16) State.reset = .next t) ∧
    ∃ t, exec (.add .r0 .r1 0#16) (State.reset.setReg .r2 7#16) = .next t := ⟨by decide, by decide, ⟨_, rfl⟩, _, rfl⟩
/-- Both clauses: an instruction that raises nothing and one that raises. -/
theorem witness_NextPcOfEachInstruction :
    State.reset.error = none ∧ (∃ t, exec (.jmp .r0 .r0 8#16) State.reset = .next t ∧ t.error = none) ∧
    ∃ t, exec (.int .r0 .r0 4#16) State.reset = .next t ∧ t.error ≠ none :=
  ⟨rfl, ⟨_, rfl, rfl⟩, _, rfl, by decide⟩
theorem witness_MemoryFrame :
    (∃ t, exec (.add .r0 .r1 0#16) State.reset = .next t ∧ Claims.storeAddr (.add .r0 .r1 0#16) State.reset = none) ∧
    ∃ t, exec (.store .r0 .r0 4094#16) State.reset = .next t ∧
      Claims.storeAddr (.store .r0 .r0 4094#16) State.reset = some 4094 ∧ 4093 ≠ 4094 ∧ 4093 ≠ 4094 + 1 :=
  ⟨⟨_, rfl, rfl⟩, _, execStore_ok .r0 .r0 4094#16 State.reset (by decide), rfl, by decide, by decide⟩
theorem witness_StackPointerFrame :
    (∃ t, exec (.push .r0 .r0 0#16) State.reset = .next t ∧ t.sp ≠ State.reset.sp) ∧
    (∃ t, exec (.ret .r0 .r0 0#16) { State.reset with sp := 4093 } = .next t ∧ t.sp ≠ 4093) ∧
    (∃ t, hostMove 0 (.load [1] none) State.reset = .next t) ∧ ∃ t, hostMove 0 (.run (some 0)) State.reset = .next t :=
  ⟨⟨_, execPush_ok .r0 .r0 0#16 State.reset (by decide), by decide⟩,
   ⟨_, execRet_ok .r0 .r0 0#16 _ (by decide), by decide⟩, ⟨_, rfl⟩, _, rfl⟩
theorem witness_AddressErrorCauses :
    State.reset.error = none ∧ ∃ t, exec (.load .r0 .r0 4095#16) State.reset = .next t ∧ t.error = some (.addressOutOfRange 4095#16) :=
  ⟨rfl, _, execLoad_error .r0 .r0 4095#16 State.reset (by decide), rfl⟩
theorem witness_OnlyIntTouchesEnvironment :
    (∃ t, exec (.int .r0 .r0 1#16) State.reset = .next t ∧ t.output ≠ State.reset.output) ∧
    ∃ t, exec (.int .r0 .r0 2#16) { State.reset with input := [some 1] } = .next t ∧ t.input ≠ [some 1] :=
  ⟨⟨_, rfl, by decide⟩, _, rfl, by decide⟩
theorem witness_SequencerIsOutOfReach : ∃ t, exec (.int .r0 .r0 0#16) State.reset = .next t := ⟨_, rfl⟩
/-- The guard's premise is met by another instruction after a counted one, and by a counted one that is the first. -/
theorem witness_StepRunsDecodedInstruction :
    ((running 4092 [0x11, 0, 0, 0]).running = true ∧ (running 4092 [0x11, 0, 0, 0]).pc.toNat ≤ 4092 ∧
      Claims.instrAt { running 4092 [0x11, 0, 0, 0] with nopCount := 1 } = .add .r0 .r1 0#16 ∧
      ¬ (Instr.add .r0 .r1 0#16 = .mov .r0 .r0 0#16 ∧ 1 ≤ 1)) ∧
    Claims.instrAt (running 0 []) = .mov .r0 .r0 0#16 ∧
      ¬ (Instr.mov .r0 .r0 0#16 = .mov .r0 .r0 0#16 ∧ 1 ≤ (running 0 []).nopCount) := by decide
/-- A raise; then no raise with the limit just reached, with the end of memory just reached, and with neither. -/
theorem witness_EndOfStepChecks :
    (raise State.reset .runawayExecution).error ≠ none ∧
    (State.reset.error = none ∧ ∃ n, ({ State.reset with limit := some 1 } : State).limit = some n ∧ n ≤ State.reset.execCount + 1) ∧
    (¬ (∃ n, State.reset.limit = some n ∧ n ≤ State.reset.execCount + 1) ∧ 4096 ≤ (running 4096 []).pc.toNat) ∧
    ¬ 4096 ≤ (running 4095 []).pc.toNat := by
  refine ⟨by decide, ⟨rfl, 1, rfl, by decide⟩, ⟨?_, by decide⟩, by decide⟩
  rintro ⟨n, h, -⟩
  cases h
theorem witness_FetchReadsFourBytes :
    (running 4092 []).pc.toNat ≤ 4092 ∧ 4092 < (running 4093 []).pc.toNat ∧ (running 4093 []).running = true := by decide
/-- The highest address with two words, with a limit the first does not reach by one. -/
theorem witness_SecondMovZeroIsRunaway :
    ∃ s : State, s = { running 4088 [0, 1, 0, 0, 0, 2] with limit := some 2 } ∧ s.running = true ∧ s.error = none ∧
      s.nopCount = 0 ∧ (∀ n, s.limit = some n → s.execCount + 1 < n) ∧ s.pc.toNat ≤ 4088 ∧
      (List.range 8).map (fun k => s.mem.read (s.pc.toNat + k)) = [0, 1, 0, 0, 0, 2, 0, 0] :=
  ⟨_, rfl, rfl, rfl, rfl, fun n h => by cases h; decide, by decide, by decide⟩
/-- The single step of the second word, at the last address a fetch succeeds at, with a limit it would reach. -/
theorem witness_SecondMovZeroIsRunaway_step :
    ∃ s : State, s = { running 4092 [] with nopCount := 1, limit := some 0 } ∧ s.running = true ∧ s.pc.toNat ≤ 4092 ∧
      Claims.instrAt s = .mov .r0 .r0 0#16 ∧ 1 ≤ s.nopCount :=
  ⟨_, rfl, rfl, by decide, by decide, by decide⟩

/-- A running machine with a limit of 1 at an ADD. -/
def limited : State := { running 0 [0x11, 0x00, 0x00, 0x00] with limit := some 1 }

theorem witness_LimitErrorKeepsInstruction :
    limited.running = true ∧ limited.pc.toNat ≤ 4092 ∧ limited.nopCount = 0 ∧ limited.limit = some 1 ∧
    1 ≤ limited.execCount + 1 ∧ Claims.instrAt limited = .add .r0 .r1 0#16 ∧
    ∃ t, exec (.add .r0 .r1 0#16) { limited with nopCount := 0 } = .next t ∧ t.error = none :=
  ⟨rfl, by decide, rfl, rfl, by decide, by decide, _, rfl, rfl⟩
/-- An aborting error at the fetch and one of an instruction, and the limit's. -/
theorem witness_ErrorsArePrecise :
    after (step (running 4093 [])) (fun t => t.error == some (.addressOutOfRange 4093)) = true ∧
    after (step (running 4092 [0xE0, 0x00, 0x00, 0x04])) (fun t => t.error == some (.unknownInterrupt 4)) = true ∧
    after (step limited) (fun t => t.error == some .instructionLimitExceeded) = true ∧
    (running 4093 []).running = true ∧ (running 4093 []).error = none ∧ limited.running = true ∧ limited.error = none := by decide
theorem witness_StoppedMachineKeepsItsState : State.reset.running = false := by decide
theorem witness_LimitOneIsASingleStep :
    ∃ s t, s = poke 0 [0x11, 0x00, 0x00, 0x00] State.reset ∧ s.running = false ∧ s.pc.toNat ≤ 4092 ∧
      Claims.instrAt s = .add .r0 .r1 0#16 ∧
      exec (.add .r0 .r1 0#16) { startRun { s with limit := some 1 } s.pc with nopCount := 0 } = .next t ∧ t.error = none :=
  ⟨_, _, rfl, rfl, by decide, by decide, rfl, rfl⟩
/-- A given start, the highest there is, and the default start of the highest `PROGRAM_BASE`. -/
theorem witness_RunStartsTheMachine :
    State.reset.running = false ∧ (∃ w, some (65535#16) = some w ∧ 65535 = w.toNat) ∧
    (none : Option Word) = none ∧ 4092 = (4092 : ProgramBase).val := ⟨by decide, ⟨_, rfl, by decide⟩, rfl, by decide⟩
theorem witness_LimitIsSetAndCleared : State.reset.running = false := by decide
/-- An image that ends at the last byte, and one that ends one byte later, at a given address and at `PROGRAM_BASE`. -/
theorem witness_LoadCopiesTheImage :
    State.reset.running = false ∧ some 4094 = some 4094 ∧ 4094 + [0xAA#8, 0xBB#8].length ≤ 4096 ∧
    4096 < 4095 + [0xAA#8, 0xBB#8].length ∧ 4092 = (4092 : ProgramBase).val ∧ 4092 + [0#8, 0#8, 0#8, 0#8].length ≤ 4096 ∧
    4096 < 4092 + [0#8, 0#8, 0#8, 0#8, 0#8].length := by decide
theorem witness_HostOperationsNeedAStoppedMachine : (running 0 []).running = true := by decide
theorem witness_HostStopsAtBoundary : (running 0 []).running = true ∧ State.reset.running = false := by decide
theorem witness_MemoryFormIsCanonical :
    Memory.wf [(0, 1#8), (4095, 2#8)] ∧ Memory.wf (Memory.writeBytes [] 4094 [0#8, 2#8]) ∧
    ∀ a, Memory.read [(4095, 2#8)] a = (Memory.writeBytes [] 4094 [0#8, 2#8]).read a := by
  refine ⟨by decide, by decide, fun a => ?_⟩
  have h : Memory.writeBytes [] 4094 [0#8, 2#8] = [(4095, 2#8)] := by decide
  rw [h]

/-- The invariant of a running machine at an address, with the given code, that has counted nothing and has no limit. -/
theorem inv_running (a : Word) (code : List Byte) (h : (Memory.writeBytes [] a.toNat code).wf) : Inv (running a code) := by
  refine ⟨h, (by decide : (4095#16).toNat % 2 = 1), (by decide : (4095#16).toNat ≤ 4095), Nat.zero_le _,
    fun _ => Nat.zero_le _, fun h => ?_, fun _ => rfl, fun _ => rfl, fun _ h => ?_,
    fun _ h => ?_, fun _ h => ?_, fun h => ?_, fun _ _ h => ?_⟩ <;> cases h

theorem witness_StepKeepsInv : Inv (running 0 [0xE0, 0x00, 0x00, 0x04]) ∧ ∃ t, step (running 0 [0xE0, 0x00, 0x00, 0x04]) = .next t := by
  refine ⟨inv_running _ _ (by decide), ?_⟩
  have h : after (step (running 0 [0xE0, 0x00, 0x00, 0x04])) (fun _ => true) = true := by decide
  cases hs : step (running 0 [0xE0, 0x00, 0x00, 0x04]) with
  | next t => exact ⟨t, rfl⟩
  | fault f => rw [hs] at h; cases h
  | refused r => rw [hs] at h; cases h
/-- States that satisfy the invariant, with a step to each end the table of R79 gives. -/
theorem witness_RunEndsInATabledWay :
    (Inv (running 0 [0xE0, 0x00, 0x00, 0x00]) ∧ after (step (running 0 [0xE0, 0x00, 0x00, 0x00])) (fun t => !t.running) = true) ∧
    (Inv (running 4092 [0xF0, 0x00, 0x00, 0x00]) ∧
      after (step (running 4092 [0xF0, 0x00, 0x00, 0x00])) (fun t => t.haltCause == some .endOfMemory && !t.running) = true) ∧
    (Inv (running 0 [0xE0, 0x00, 0x00, 0x04]) ∧ after (step (running 0 [0xE0, 0x00, 0x00, 0x04])) (fun t => !t.running) = true) ∧
    (Inv (running 4093 []) ∧ after (step (running 4093 [])) (fun t => !t.running) = true) :=
  ⟨⟨inv_running _ _ (by decide), by decide⟩, ⟨inv_running _ _ (by decide), by decide⟩,
   ⟨inv_running _ _ (by decide), by decide⟩, ⟨inv_running _ _ (by decide), by decide⟩⟩
/-- For the runaway and limit clauses of `RunEndsInATabledWay`. -/
theorem witness_RunEndsInATabledWay_guard_limit :
    (Inv { running 0 [] with nopCount := 1 } ∧
      after (step { running 0 [] with nopCount := 1 }) (fun t => t.error == some .runawayExecution && !t.running) = true) ∧
    (Inv limited ∧ after (step limited) (fun t => t.error == some .instructionLimitExceeded && !t.running) = true) := by
  have h := inv_running 0 [] (by decide)
  have g := inv_running 0 [0x11, 0x00, 0x00, 0x00] (by decide)
  refine ⟨⟨⟨h.memWf, h.spOdd, h.spRange, by decide, fun _ => by decide, fun h => ?_, h.errorStops, h.haltStops, h.codeRange,
    h.addrRange, h.errorHalt, h.endPc, h.underLimit⟩, by decide⟩, ⟨⟨g.memWf, g.spOdd, g.spRange, g.nopRange, g.nopRunning, g.nopTwo,
    g.errorStops, g.haltStops, g.codeRange, g.addrRange, g.errorHalt, g.endPc, fun _ _ _ => .inl rfl⟩, by decide⟩⟩
  cases h
theorem witness_HostMoveKeepsInv : Inv (running 0 []) ∧ ∃ t, hostMove 0 .stop (running 0 []) = .next t :=
  ⟨inv_running _ _ (by decide), _, rfl⟩
/-- A machine of the highest `PROGRAM_BASE` with a program loaded and started there is reachable. -/
theorem witness_ReachableSatisfiesInv :
    ∃ t, hostMove 4092 (.load [0xE0, 0x00, 0x00, 0x00]) (State.resetAt 4092) = .next t ∧ Reachable 4092 (startRun t 4092) :=
  ⟨_, rfl, .move _ _ (.move _ _ .reset (.host _ _ (.load [0xE0, 0x00, 0x00, 0x00]) rfl)) (.host _ _ .run rfl)⟩

end Sys2Proof.Tests
end

section
/-! Proofs for spec 00_scope.md: the parameter `PROGRAM_BASE` at reset (R27, R170) and as the default address of the host's
load (R5, R129). -/

namespace Sys2Proof.Machine

/-! ### The reset values and the explicit reset -/

@[simp] theorem State.resetAt_reg (base : ProgramBase) (r : Reg) : (State.resetAt base).reg r = 0#16 := by
  cases r <;> rfl

@[simp] theorem State.resetAt_mem_read (base : ProgramBase) (a : Nat) : (State.resetAt base).mem.read a = 0#8 := rfl

@[simp] theorem State.resetAt_pc_toNat (base : ProgramBase) : (State.resetAt base).pc.toNat = base.val :=
  programBase_word_toNat base

/-- The explicit reset is allowed in every state, running or not (notes/assumptions/10.md). -/
theorem hostMove_reset (base : ProgramBase) (s : State) :
    hostMove base .reset s =
      .next { State.resetAt base with output := s.output, input := s.input, pollCount := s.pollCount } := rfl

/-- Settles O50: the reset state field by field, and the explicit reset as that state with the old environment's data. -/
theorem resetValues : Obligations.ResetValues := by
  intro base
  refine ⟨⟨State.resetAt_reg base, State.resetAt_mem_read base, State.resetAt_pc_toNat base, ?_⟩, fun s => ?_⟩
  · exact ⟨rfl, rfl, rfl, rfl, rfl, rfl, rfl⟩
  · exact ⟨_, hostMove_reset base s, ⟨rfl, rfl, rfl⟩, rfl⟩

/-! ### The host's load -/

/-- A load of a stopped machine, with its default address, when the image fits below the end of memory. -/
theorem hostMove_load_of_fits {base : ProgramBase} {s : State} {bytes : List Byte} {address : Option Nat}
    (hstop : s.running = false) (hfits : address.getD base.val + bytes.length ≤ memorySize) :
    hostMove base (.load bytes address) s =
      .next { s with mem := s.mem.writeBytes (address.getD base.val) bytes, nopCount := 0, execCount := 0 } := by
  rw [hostMove, hostLoad, whenStopped_stopped _ _ hstop, if_pos hfits]

/-- A load of a stopped machine, with its default address, when the image runs past the end of memory. -/
theorem hostMove_load_of_past_end {base : ProgramBase} {s : State} {bytes : List Byte} {address : Option Nat}
    (hstop : s.running = false) (hpast : memorySize < address.getD base.val + bytes.length) :
    hostMove base (.load bytes address) s = .refused (.loadPastEnd (address.getD base.val) bytes.length) := by
  rw [hostMove, hostLoad, whenStopped_stopped _ _ hstop, if_neg (Nat.not_le.mpr hpast)]

/-- Settles O51: the two outcomes of `hostMove` on a load, with the bytes read back by the laws of `Memory.writeBytes`. -/
theorem loadCopiesTheImage : Obligations.LoadCopiesTheImage := by
  intro base s bytes address a hstop haddr
  have ha : address.getD base.val = a := by
    obtain rfl | ⟨rfl, rfl⟩ := haddr <;> rfl
  subst ha
  refine ⟨fun hfits => ⟨_, hostMove_load_of_fits hstop hfits, ?_, ?_, rfl⟩, hostMove_load_of_past_end hstop⟩
  · exact Memory.read_writeBytes_inside bytes s.mem _
  · exact Memory.read_writeBytes_outside bytes s.mem _

end Sys2Proof.Machine
end

section
/-! Proofs for spec 10_state.md: the program counter (R14, R15), the stack pointer (R17), the register file (R12), the
environment's streams (R28), the canonical memory (R19), and the invariant of every reachable state. -/

namespace Sys2Proof.Machine

/-! ### The canonical memory list -/

/-- An address without an entry reads as the reset byte. -/
theorem Memory.read_of_free {m : Memory} {a : Nat} (h : m.Free a) : m.read a = Memory.resetByte := by
  induction m with
  | nil => rfl
  | cons c m ih =>
    rw [Memory.read_cons, if_neg (h c List.mem_cons_self)]
    exact ih fun d hd => h d (List.mem_cons_of_mem _ hd)

/-- A canonical list starts with its lowest address, which holds a byte other than the reset byte. -/
theorem Memory.wf_cons {c : Host.Cell} {m : Memory} (h : Memory.wf (c :: m)) :
    (∀ a, a ≤ c.1 → m.Free a) ∧ c.2 ≠ Memory.resetByte ∧ m.wf := by
  obtain ⟨hsorted, hcells⟩ := h
  obtain ⟨hhead, htail⟩ := List.pairwise_cons.mp hsorted
  refine ⟨fun a ha d hd => ?_, (hcells c List.mem_cons_self).2, htail, fun d hd => hcells d (List.mem_cons_of_mem _ hd)⟩
  have := hhead d hd
  omega

/-- Where two canonical lists read the same, the second starts at no higher address than the first. -/
theorem Memory.head_le_of_read_eq {c d : Host.Cell} {m n : Memory} (hm : Memory.wf (c :: m)) (hn : Memory.wf (d :: n))
    (h : ∀ a, Memory.read (c :: m) a = Memory.read (d :: n) a) : d.1 ≤ c.1 := by
  by_contra hlt
  have hfree : Memory.Free (d :: n) c.1 := by
    intro e he
    rcases List.mem_cons.mp he with rfl | he
    · omega
    · exact (Memory.wf_cons hn).1 c.1 (by omega) e he
  have hc := h c.1
  rw [Memory.read_cons, if_pos rfl, Memory.read_of_free hfree] at hc
  exact (Memory.wf_cons hm).2.1 hc

/-- Canonical lists that start at the same address and read the same have tails that read the same. -/
theorem Memory.tail_read_eq {c d : Host.Cell} {m n : Memory} (hm : Memory.wf (c :: m)) (hn : Memory.wf (d :: n))
    (hcd : c.1 = d.1) (h : ∀ a, Memory.read (c :: m) a = Memory.read (d :: n) a) (a : Nat) : m.read a = n.read a := by
  by_cases ha : c.1 = a
  · rw [Memory.read_of_free ((Memory.wf_cons hm).1 a ha.ge), Memory.read_of_free ((Memory.wf_cons hn).1 a (by omega))]
  · have := h a
    rwa [Memory.read_cons, Memory.read_cons, if_neg ha, if_neg (by omega)] at this

/-- A canonical list with an entry does not read as the empty one. -/
theorem Memory.not_read_cons_eq_reset {c : Host.Cell} {m : Memory} (hm : Memory.wf (c :: m)) :
    ¬ ∀ a, Memory.read (c :: m) a = Memory.resetByte := by
  intro h
  have hc := h c.1
  rw [Memory.read_cons, if_pos rfl] at hc
  exact (Memory.wf_cons hm).2.1 hc

/-- Settles O56, by induction on the first list: equal readings force equal first entries, and then equal tails. -/
theorem memoryFormIsCanonical : Obligations.MemoryFormIsCanonical := by
  intro m
  induction m with
  | nil =>
    intro m' _ hm' h
    cases m' with
    | nil => rfl
    | cons d n => exact absurd (fun a => (h a).symm) (Memory.not_read_cons_eq_reset hm')
  | cons c m ih =>
    intro m' hm hm' h
    cases m' with
    | nil => exact absurd h (Memory.not_read_cons_eq_reset hm)
    | cons d n =>
      have haddr : c.1 = d.1 :=
        Nat.le_antisymm (Memory.head_le_of_read_eq hm' hm fun a => (h a).symm) (Memory.head_le_of_read_eq hm hm' h)
      have hbyte : c.2 = d.2 := by
        have := h c.1
        rwa [Memory.read_cons, Memory.read_cons, if_pos rfl, if_pos haddr.symm] at this
      have htail : m = n :=
        ih n (Memory.wf_cons hm).2.2 (Memory.wf_cons hm').2.2 (Memory.tail_read_eq hm hm' haddr h)
      rw [Prod.ext haddr hbyte, htail]

/-! ### The invariant, by how the machine stands -/

/-- The part of the invariant that is about memory and the stack pointer, which no latch and no counter enters (R17, R19). -/
structure StorageInv (s : State) : Prop where
  memWf : s.mem.wf
  spOdd : s.sp.toNat % 2 = 1
  spRange : s.sp.toNat ≤ 4095

theorem Inv.storage {s : State} (h : Inv s) : StorageInv s := ⟨h.memWf, h.spOdd, h.spRange⟩

/-- What an error may record (R24, R47). -/
def ExecError.InRange : ExecError → Prop
  | .unknownInterrupt c => 4 ≤ c.toNat
  | .addressOutOfRange a => 4093 ≤ a.toNat
  | .runawayExecution | .instructionLimitExceeded => True

/-- An instruction's own error records a value in range. -/
theorem OwnError.inRange {e : ExecError} (h : OwnError e) : e.InRange := by
  obtain ⟨c, rfl, hc⟩ | ⟨a, rfl, ha⟩ := h
  · exact hc
  · exact Nat.le_trans (by decide) ha

/-- The invariant of a running machine: no latch is set (R24, R25). -/
theorem inv_of_running {s : State} (hst : StorageInv s) (hnop : s.nopCount ≤ 1) (herr : s.error = none)
    (hhalt : s.haltCause = none) (hlim : ∀ n, s.limit = some n → s.execCount = 0 ∨ s.execCount < n) : Inv s where
  memWf := hst.memWf
  spOdd := hst.spOdd
  spRange := hst.spRange
  nopRange := by omega
  nopRunning _ := hnop
  nopTwo := by omega
  errorStops _ := herr
  haltStops _ := hhalt
  codeRange := by simp [herr]
  addrRange := by simp [herr]
  errorHalt := by simp [herr]
  endPc := by simp [hhalt]
  underLimit _ := hlim

/-- The invariant of a machine that stopped without an error (R25, R78). -/
theorem inv_of_halted {s : State} (hst : StorageInv s) (hstop : s.running = false) (hnop : s.nopCount ≤ 1)
    (herr : s.error = none) (hend : s.haltCause = some .endOfMemory → memorySize ≤ s.pc.toNat) : Inv s where
  memWf := hst.memWf
  spOdd := hst.spOdd
  spRange := hst.spRange
  nopRange := by omega
  nopRunning _ := hnop
  nopTwo := by omega
  errorStops := by simp [hstop]
  haltStops := by simp [hstop]
  codeRange := by simp [herr]
  addrRange := by simp [herr]
  errorHalt := by simp [herr]
  endPc := hend
  underLimit := by simp [hstop]

/-- The invariant of a machine that an error stopped, by what it was when the error was raised (R79, R150). -/
theorem inv_raise {s : State} {e : ExecError} (hst : StorageInv s) (hnop : s.nopCount ≤ 2)
    (htwo : s.nopCount = 2 → e = .runawayExecution) (hrange : e.InRange)
    (hhalt : s.haltCause = none ∨ (e = .instructionLimitExceeded ∧ s.haltCause = some .intHalt)) : Inv (raise s e) where
  memWf := hst.memWf
  spOdd := hst.spOdd
  spRange := hst.spRange
  nopRange := hnop
  nopRunning := by simp
  nopTwo h := congrArg some (htwo h)
  errorStops := by simp
  haltStops := by simp
  codeRange := by rintro c ⟨⟩; exact hrange
  addrRange := by rintro a ⟨⟩; exact hrange
  errorHalt := by rintro _ ⟨⟩; exact hhalt
  endPc h := by obtain h' | ⟨_, h'⟩ := hhalt <;> simp [h'] at h
  underLimit := by simp

/-! ### The invariant of reset -/

/-- A machine after reset stands as one halted without an error (R27). -/
theorem inv_resetAt (base : ProgramBase) : Inv (State.resetAt base) :=
  have hsp : (State.resetAt base).sp.toNat = 4095 := rfl
  inv_of_halted ⟨State.resetAt_mem_wf base, by rw [hsp], by rw [hsp]⟩ rfl (Nat.zero_le _) rfl nofun

/-- Settles O57, at every base and so at the one of `State.reset`. -/
theorem resetSatisfiesInv : Obligations.ResetSatisfiesInv := ⟨inv_resetAt, inv_resetAt _⟩

/-! ### The invariant through a step -/

/-- A completed instruction keeps memory canonical and `sp` odd and inside memory: a push needs room for its word, and so
needs `sp` at least 3, and a pop of an odd `sp` needs it at most 4093. -/
theorem Completed.storage {s t : State} (h : Completed s t) (hs : StorageInv s) : StorageInv t where
  memWf := by
    obtain hm | ⟨a, v, ha, hm⟩ := h.mem
    · exact hm ▸ hs.memWf
    · exact hm ▸ wf_writeWord hs.memWf ha v
  spOdd := by
    have hodd := hs.spOdd
    obtain hsp | ⟨hsp, hroom⟩ | ⟨hsp, hroom⟩ := h.sp
    · exact hsp ▸ hodd
    · rw [State.pushAddr_eq] at hsp hroom
      rw [hsp]
      bv_omega
    · rw [hsp]; bv_omega
  spRange := by
    have hodd := hs.spOdd
    obtain hsp | ⟨hsp, hroom⟩ | ⟨hsp, hroom⟩ := h.sp
    · exact hsp ▸ hs.spRange
    · rw [hsp]; omega
    · rw [hsp]; bv_omega

/-- The invariant after the end of a step whose instruction completed (R70 steps e and f). -/
theorem Completed.inv_endOfStep {s u : State} (h : Completed s u) (hst : StorageInv s) (hnop : s.nopCount ≤ 1)
    (herr : s.error = none) (hhalt : s.haltCause = none) : Inv (endOfStep u) := by
  have hu : StorageInv u := h.storage hst
  have hst' : StorageInv (countInstr u) := ⟨hu.memWf, hu.spOdd, hu.spRange⟩
  have hnop' : u.nopCount ≤ 1 := h.nopCount ▸ hnop
  have herr' : u.error = none := h.error.trans herr
  have hrun : (u.running = s.running ∧ u.haltCause = none) ∨ (u.running = false ∧ u.haltCause = some .intHalt) :=
    h.run.imp_left fun ⟨hr, hc⟩ => ⟨hr, hc.trans hhalt⟩
  obtain ⟨he, _⟩ | ⟨_, _, heq⟩ | ⟨_, _, _, hpc, heq⟩ | ⟨_, hlim, _, heq⟩ := endOfStep_cases u
  · simp [herr'] at he
  · rw [heq]
    exact inv_raise hst' (Nat.le_succ_of_le hnop') (fun h2 : u.nopCount = 2 => by omega) trivial
      (hrun.imp And.right fun ⟨_, hc⟩ => ⟨rfl, hc⟩)
  · rw [heq]
    exact inv_of_halted ⟨hu.memWf, hu.spOdd, hu.spRange⟩ rfl hnop' herr' fun _ => hpc
  · rw [heq]
    obtain ⟨_, hc⟩ | ⟨hstop, hc⟩ := hrun
    · refine inv_of_running hst' hnop' herr' hc fun n hn => .inr ?_
      by_contra hle
      have := (limitReached_iff _).mpr ⟨n, hn, Nat.le_of_not_lt hle⟩
      simp [this] at hlim
    · exact inv_of_halted hst' hstop hnop' herr' fun h' => by simp [hc] at h'

/-- The guard leaves a count of at most 1 where it does not raise (R74). -/
theorem guardCount_nopCount_le {i : Instr} {s : State} (h : ¬ (i = .mov .r0 .r0 0#16 ∧ 1 ≤ s.nopCount)) :
    (guardCount i s).nopCount ≤ 1 := by
  rw [guardCount_nopCount]
  split
  · next hi =>
    have : ¬ 1 ≤ s.nopCount := fun hn => h ⟨(isRunawayPattern_iff i).mp hi, hn⟩
    omega
  · omega

/-- Settles O58, by what a step can do: nothing, a refused fetch, the guard's error, or an instruction that raises or
completes. -/
theorem stepKeepsInv : Obligations.StepKeepsInv := by
  intro s t h hstep
  obtain ⟨_, rfl⟩ | ⟨hrun, hpc, rfl⟩ | ⟨hrun, hnop, _, rfl⟩ | ⟨hrun, i, u, _, hguard, hexec, rfl⟩ := step_cases hstep
  · exact h
  · have hnop := h.nopRunning hrun
    exact inv_raise h.storage h.nopRange (by omega) hpc (.inl (h.haltStops hrun))
  · have hnop := h.nopRunning hrun
    refine inv_raise ⟨h.memWf, h.spOdd, h.spRange⟩ ?_ (fun _ => rfl) trivial (.inl (h.haltStops hrun))
    rw [guardCount_nopCount]
    split <;> omega
  · have hst : StorageInv (guardCount i s) := ⟨h.memWf, h.spOdd, h.spRange⟩
    have hnop : (guardCount i s).nopCount ≤ 1 := guardCount_nopCount_le hguard
    obtain ⟨u', hu', hout⟩ := exec_outcome i (guardCount i s)
    obtain rfl : u = u' := next_inj (hexec.symm.trans hu')
    obtain ⟨e, hown, rfl⟩ | hdone := hout
    · exact inv_raise hst (by omega) (by omega) hown.inRange (.inl (h.haltStops hrun))
    · exact hdone.inv_endOfStep hst hnop (h.errorStops hrun) (h.haltStops hrun)

/-! ### The invariant through the host's operations and the environment -/

/-- A host operation keeps the invariant: load and the limit's are of a stopped machine, run clears the latches and the counters
(R129 to R132, R170). -/
theorem inv_hostMove {base : ProgramBase} {s t : State} {op : HostOp} (h : Inv s) (hop : hostMove base op s = .next t) :
    Inv t := by
  obtain ⟨bytes, address, _, hstop, hfits, rfl⟩ | ⟨start, _, _, rfl⟩ | ⟨n, _, hstop, rfl⟩ | ⟨_, hstop, rfl⟩ |
    ⟨_, ⟨hrun, rfl⟩ | ⟨_, rfl⟩⟩ | ⟨_, rfl⟩ := hostMove_cases hop
  · exact { h with
      memWf := Memory.wf_writeBytes bytes h.memWf hfits
      nopRange := Nat.zero_le _
      nopRunning := fun _ => Nat.zero_le _
      nopTwo := nofun
      underLimit := fun _ _ _ => .inl rfl }
  · exact inv_of_running ⟨h.memWf, h.spOdd, h.spRange⟩ (Nat.zero_le _) rfl rfl fun _ _ => .inl rfl
  · exact { h with underLimit := by simp [hstop] }
  · exact { h with underLimit := by simp [hstop] }
  · exact inv_of_halted ⟨h.memWf, h.spOdd, h.spRange⟩ rfl (h.nopRunning hrun) (h.errorStops hrun) nofun
  · exact h
  · exact { inv_resetAt base with }

theorem inv_move {base : ProgramBase} {s t : State} (h : Inv s) (hm : Move base s t) : Inv t := by
  cases hm with
  | machine _ _ hstep => exact stepKeepsInv s t h hstep
  | host _ _ hop => exact inv_hostMove h hop
  | answers l => exact { h with }

/-- Settles O60, by induction on how the state was reached. -/
theorem reachableSatisfiesInv : Obligations.ReachableSatisfiesInv := by
  intro base s hs
  induction hs with
  | reset => exact inv_resetAt base
  | move s t _ hm ih => exact inv_move ih hm

/-! ### Relative targets -/

/-- Settles O23: `narrow` leaves a sum that is in range alone, and adds 65536 to a negative one. -/
theorem relativeTargetRange : Obligations.RelativeTargetRange := by
  intro a imm ha
  have hrel := relTarget_toNat a imm
  have hlow : -32768 ≤ imm.toInt := BitVec.le_toInt imm
  have hhigh : imm.toInt < 32768 := BitVec.toInt_lt
  refine ⟨fun hnonneg => ?_, fun hneg => ?_, ?_⟩
  · rw [Int.emod_eq_of_lt hnonneg (by omega)] at hrel
    omega
  · rw [← Int.add_emod_right, Int.emod_eq_of_lt (by omega) (by omega)] at hrel
    omega
  · rw [BitVec.toNat_add, BitVec.toNat_ofNat]
    omega

/-! ### What an instruction does: the error it raises, or the state it leaves when it completes -/

/-- The error of an access to the two bytes at `a` (R31, R32). -/
def rangeError (a : Word) : Option ExecError := if a.toNat ≤ 4094 then none else some (.addressOutOfRange a)

/-- The error an instruction raises of its own: an access of two bytes that leaves memory (R47), or an interrupt number that
has no service (R121). -/
def raisedError : Instr → State → Option ExecError
  | .load _ _ v, _ | .store _ _ v, _ => rangeError v
  | .push _ _ _, s | .call _ _ _, s => rangeError s.pushAddr
  | .pop _ _ _, s | .ret _ _ _, s => rangeError s.sp
  | .int _ _ v, _ => if 4 ≤ v.toNat then some (.unknownInterrupt v) else none
  | _, _ => none

/-- The big-endian word at the address `a` (R34). -/
def Memory.word (m : Memory) (a : Word) : Word := joinBytes (m.read a.toNat) (m.read (a.toNat + 1))

/-- The memory with the word `v` stored big-endian at the address `a` (R34). -/
def Memory.setWord (m : Memory) (a v : Word) : Memory := (m.write a.toNat (highByte v)).write (a.toNat + 1) (lowByte v)

/-- The state after the service of an interrupt number, where it has one (R115). -/
def serviceState (v : Word) (s : State) : State :=
  if v = 0#16 then service0 s else if v = 1#16 then service1 s else if v = 2#16 then service2 s
  else if v = 3#16 then service3 s else s

/-- The state an instruction that raises nothing leaves; `exec_eq` ties it to `exec`. -/
def completedState : Instr → State → State
  | .mov x y v, s => (s.setReg x (movSource s y v)).advance
  | .add x y _, s => (s.setReg x (aluAdd (s.reg x) (s.reg y))).advance
  | .sub x y _, s => (s.setReg x (aluSub (s.reg x) (s.reg y))).advance
  | .mul x y _, s => (s.setReg x (aluMul (s.reg x) (s.reg y))).advance
  | .div x y _, s => (s.setReg x (if aluZeroDivisor (s.reg y) then s.reg x else aluDiv (s.reg x) (s.reg y))).advance
  | .load x _ v, s => (s.setReg x (s.mem.word v)).advance
  | .store x _ v, s => (s.setMem (s.mem.setWord v (s.reg x))).advance
  | .jmp _ _ v, s => s.setPc (relTarget s.pc v)
  | .jeq x y v, s => s.setPc (branchPc s (aluEq (s.reg x) (s.reg y)) v)
  | .jne x y v, s => s.setPc (branchPc s (!aluEq (s.reg x) (s.reg y)) v)
  | .call _ _ v, s => ((s.setMem (s.mem.setWord s.pushAddr s.nextPc)).setSp s.pushAddr).setPc v
  | .ret _ _ _, s => (s.setSp (s.sp + 2#16)).setPc (s.mem.word s.sp)
  | .push x _ _, s => ((s.setMem (s.mem.setWord s.pushAddr (s.reg x))).setSp s.pushAddr).advance
  | .pop x _ _, s => ((s.setSp (s.sp + 2#16)).setReg x (s.mem.word s.sp)).advance
  | .int _ _ v, s => (serviceState v s).advance
  | .extended _ _ _, s => s.advance

/-- An operation with one access of two bytes, from what it answers in range and out of range. -/
theorem next_elim_rangeError {o : Host.Outcome State Fault Refusal} {a : Word} {s t : State}
    (hok : a.toNat ≤ 4094 → o = .next t) (herr : 4094 < a.toNat → o = .next (raise s (.addressOutOfRange a))) :
    o = .next ((rangeError a).elim t (raise s)) := by
  unfold rangeError
  split
  · next h => exact hok h
  · next h => exact herr (Nat.lt_of_not_le h)

/-- INT with a number that has a service (R115). -/
theorem execInt_service (x y : Reg) (v : Word) (s : State) (h : v.toNat < 4) :
    execInt x y v s = .next (serviceState v s).advance := by
  obtain rfl | rfl | rfl | rfl | h4 := int_number_cases v
  · rfl
  · rfl
  · rfl
  · rfl
  · omega

/-- An instruction raises the error `raisedError` names, if it names one, and else leaves `completedState`. -/
theorem exec_eq (i : Instr) (s : State) :
    exec i s = .next ((raisedError i s).elim (completedState i s) (raise s)) := by
  cases i with
  | div x y v =>
    simp only [exec, execDiv, raisedError, completedState]
    split
    · rw [State.setReg_reg_id]; rfl
    · rfl
  | load x y v => exact next_elim_rangeError (execLoad_ok x y v s) (execLoad_error x y v s)
  | store x y v => exact next_elim_rangeError (execStore_ok x y v s) (execStore_error x y v s)
  | call x y v => exact next_elim_rangeError (execCall_ok x y v s) (execCall_error x y v s)
  | ret x y v => exact next_elim_rangeError (execRet_ok x y v s) (execRet_error x y v s)
  | push x y v => exact next_elim_rangeError (execPush_ok x y v s) (execPush_error x y v s)
  | pop x y v => exact next_elim_rangeError (execPop_ok x y v s) (execPop_error x y v s)
  | int x y v =>
    simp only [exec, raisedError]
    split
    · next h => exact execInt_unknown x y v s h
    · next h => exact execInt_service x y v s (Nat.lt_of_not_le h)
  | _ => rfl

/-- What an instruction has done: it raised its error, or it completed. -/
theorem exec_cases {i : Instr} {s t : State} (h : exec i s = .next t) :
    (∃ e, t = raise s e) ∨ t = completedState i s := by
  obtain rfl := next_inj ((exec_eq i s).symm.trans h)
  cases raisedError i s with
  | none => exact .inr rfl
  | some e => exact .inl ⟨e, rfl⟩

/-! ### What a completed instruction leaves, field by field -/

@[simp] theorem serviceState_error (v : Word) (s : State) : (serviceState v s).error = s.error := by
  unfold serviceState; split_ifs <;> rfl

@[simp] theorem serviceState_pc (v : Word) (s : State) : (serviceState v s).pc = s.pc := by
  unfold serviceState; split_ifs <;> rfl

@[simp] theorem serviceState_sp (v : Word) (s : State) : (serviceState v s).sp = s.sp := by
  unfold serviceState; split_ifs <;> rfl

/-- An instruction that completes leaves no error latched that was not there before (R24). -/
@[simp] theorem completedState_error (i : Instr) (s : State) : (completedState i s).error = s.error := by
  cases i with
  | int x y v => exact serviceState_error v s
  | _ => rfl

/-! ### The next program counter -/

theorem State.nextPc_toNat (s : State) : (s.nextPc.toNat : Int) = ((s.pc.toNat : Int) + 4) % 65536 := narrow_toNat _

theorem branchPc_toNat (s : State) (taken : Bool) (imm : Word) :
    ((branchPc s taken imm).toNat : Int) =
      if taken then ((s.pc.toNat : Int) + 4 + imm.toInt) % 65536 else ((s.pc.toNat : Int) + 4) % 65536 := by
  unfold branchPc
  split
  · exact relTarget_toNat s.pc imm
  · exact s.nextPc_toNat

/-- Settles O34: a raise keeps `pc`; a completed instruction sets it as R15's table says, row by row. -/
theorem nextPcOfEachInstruction : Obligations.NextPcOfEachInstruction := by
  intro i s t herr hexec
  obtain ⟨e, rfl⟩ | rfl := exec_cases hexec
  · exact ⟨fun _ => rfl, nofun⟩
  refine ⟨fun hne => absurd ((completedState_error i s).trans herr) hne, fun _ => ?_⟩
  cases i with
  | jmp x y v => exact relTarget_toNat s.pc v
  | jeq x y v => simp [completedState, branchPc_toNat]
  | jne x y v => simp [completedState, branchPc_toNat, aluEq]
  | call x y v => rfl
  | ret x y v => exact congrArg Nat.cast (joinBytes_toNat _ _)
  | int x y v => simpa [completedState] using (serviceState v s).nextPc_toNat
  | _ => exact s.nextPc_toNat

/-! ### The stack pointer -/

/-- No operation of the host but the reset changes `sp`. -/
theorem hostMove_sp {base : ProgramBase} {op : HostOp} {s t : State} (h : hostMove base op s = .next t)
    (hop : op ≠ .reset) : t.sp = s.sp := by
  obtain ⟨_, _, _, _, _, rfl⟩ | ⟨_, _, _, rfl⟩ | ⟨_, _, _, rfl⟩ | ⟨_, _, rfl⟩ | ⟨_, ⟨_, rfl⟩ | ⟨_, rfl⟩⟩ | ⟨hreset, _⟩ :=
    hostMove_cases h
  case inr.inr.inr.inr.inr => exact absurd hreset hop
  all_goals rfl

/-- Settles O36: a raise and every instruction but the four keep `sp`; the host's load and run write other fields. -/
theorem stackPointerFrame : Obligations.StackPointerFrame := by
  refine ⟨fun i s t hexec hne => ?_, fun base s t bytes a p hop => ?_⟩
  · obtain ⟨e, rfl⟩ | rfl := exec_cases hexec
    · exact absurd rfl hne
    have hdown : (s.pushAddr.toNat : Int) = ((s.sp.toNat : Int) - 2) % 65536 := narrow_toNat _
    have hup : ((s.sp + 2#16).toNat : Int) = ((s.sp.toNat : Int) + 2) % 65536 := by
      rw [BitVec.toNat_add]
      rfl
    cases i with
    | push x y v => exact .inl ⟨.inl ⟨x, y, v, rfl⟩, hdown⟩
    | call x y v => exact .inl ⟨.inr ⟨x, y, v, rfl⟩, hdown⟩
    | pop x y v => exact .inr ⟨.inl ⟨x, y, v, rfl⟩, hup⟩
    | ret x y v => exact .inr ⟨.inr ⟨x, y, v, rfl⟩, hup⟩
    | int x y v => exact absurd (serviceState_sp v s) hne
    | _ => exact absurd rfl hne
  · obtain hload | hrun := hop
    · exact hostMove_sp hload nofun
    · exact hostMove_sp hrun nofun

/-! ### The environment's streams -/

/-- A service's effect on the environment (R134 to R136): an event from 1 and 3, a poll by 2. -/
theorem serviceState_env (v : Word) (s : State) :
    ((serviceState v s).output = s.output ∨ v = 1#16 ∨ v = 3#16) ∧
    (((serviceState v s).input = s.input ∧ (serviceState v s).pollCount = s.pollCount) ∨ v = 2#16) := by
  unfold serviceState
  split_ifs with h0 h1 h2 h3
  · exact ⟨.inl rfl, .inl ⟨rfl, rfl⟩⟩
  · exact ⟨.inr (.inl h1), .inl ⟨rfl, rfl⟩⟩
  · exact ⟨.inl rfl, .inr h2⟩
  · exact ⟨.inr (.inr h3), .inl ⟨rfl, rfl⟩⟩
  · exact ⟨.inl rfl, .inl ⟨rfl, rfl⟩⟩

/-- Settles O38: a raise and every instruction but INT keep the environment's fields; INT's services are four cases. -/
theorem onlyIntTouchesEnvironment : Obligations.OnlyIntTouchesEnvironment := by
  intro i s t hexec
  obtain ⟨e, rfl⟩ | rfl := exec_cases hexec
  · exact ⟨absurd rfl, fun h => h.elim (absurd rfl) (absurd rfl)⟩
  cases i with
  | int x y v =>
    obtain ⟨hout, hin⟩ := serviceState_env v s
    refine ⟨fun h => ⟨x, y, v, rfl, hout.resolve_left h⟩, fun h => ⟨x, y, v, rfl, hin.resolve_left ?_⟩⟩
    exact fun ⟨hinput, hpoll⟩ => h.elim (absurd hinput) (absurd hpoll)
  | _ => exact ⟨absurd rfl, fun h => h.elim (absurd rfl) (absurd rfl)⟩

/-! ### The registers -/

/-- A completed instruction writes no register outside R12's table; DIV by zero writes back what the register holds. -/
theorem completedState_reg_of_not_writes {i : Instr} {s : State} {r : Reg} (h : Claims.writesReg i s r = false) :
    (completedState i s).reg r = s.reg r := by
  cases i with
  | mov x y v | add x y v | sub x y v | mul x y v | load x y v | pop x y v =>
    exact State.setReg_reg_ne _ _ _ _ (by simpa [Claims.writesReg] using h)
  | div x y v =>
    simp only [completedState, State.advance_reg, State.setReg_reg]
    split_ifs with hx hzero
    · rw [hx]
    · subst hx
      have hdivisor : s.reg y = 0#16 := by simpa [Claims.writesReg] using h
      simp [hdivisor] at hzero
    · rfl
  | int x y v =>
    simp only [completedState, serviceState, State.advance_reg]
    split_ifs with h0 h1 h2 h3
    · rfl
    · rfl
    · exact State.setReg_reg_ne _ _ _ _ (by simpa [Claims.writesReg, h2] using h)
    · rfl
    · rfl
  | _ => rfl

/-- MOV's source is unchanged by a register it does not name (R85). -/
theorem movSource_setReg {s : State} {x y r : Reg} {imm v : Word} (h : Claims.readsReg (.mov x y imm) r = false) :
    movSource (s.setReg r v) y imm = movSource s y imm := by
  unfold movSource
  split_ifs with hy
  · rfl
  · exact State.setReg_reg_ne _ _ _ _ (by rintro rfl; simp [Claims.readsReg, hy] at h)

/-- A write after a change of any register: the change stands, or the write was to that register and hides it. -/
theorem State.setReg_setReg_cases (s : State) (r x : Reg) (v w : Word) :
    (s.setReg r v).setReg x w = (s.setReg x w).setReg r v ∨ (s.setReg r v).setReg x w = s.setReg x w := by
  by_cases h : r = x
  · subst h; exact .inr (State.setReg_setReg ..)
  · exact .inl (State.setReg_comm s r x v w h)

/-- A service after a change of a register it does not read. -/
theorem serviceState_setReg {x y r : Reg} {n : Word} (s : State) (v : Word) (h : Claims.readsReg (.int x y n) r = false) :
    serviceState n (s.setReg r v) = (serviceState n s).setReg r v ∨
      serviceState n (s.setReg r v) = serviceState n s := by
  have hread : n = 1#16 ∨ n = 3#16 → (s.setReg r v).reg .r0 = s.reg .r0 := fun hn =>
    State.setReg_reg_ne _ _ _ _ (by rintro rfl; obtain rfl | rfl := hn <;> simp [Claims.readsReg] at h)
  unfold serviceState
  split_ifs with h0 h1 h2 h3
  · exact .inl rfl
  · rw [service1, hread (.inl h1)]; exact .inl rfl
  · exact State.setReg_setReg_cases s.consumePoll r .r0 v (pollValue s.pollAnswer)
  · rw [service3, hread (.inr h3)]; exact .inl rfl
  · exact .inl rfl

/-- An instruction after a change of a register it does not read leaves what it would have left, with the change, or with the
instruction's own write of that register in its place. -/
theorem completedState_setReg {i : Instr} {r : Reg} (s : State) (v : Word) (h : Claims.readsReg i r = false) :
    completedState i (s.setReg r v) = (completedState i s).setReg r v ∨
      completedState i (s.setReg r v) = completedState i s := by
  have hwrite (s : State) (x : Reg) (w : Word) := (State.setReg_setReg_cases s r x v w).imp
    (congrArg State.advance) (congrArg State.advance)
  have hread {q : Reg} (hq : r ≠ q) : (s.setReg r v).reg q = s.reg q := State.setReg_reg_ne s r q v hq.symm
  cases i with
  | mov x y n =>
    rw [completedState, movSource_setReg h]
    exact hwrite s x _
  | add x y n | sub x y n | mul x y n | div x y n =>
    obtain ⟨hx, hy⟩ : r ≠ x ∧ r ≠ y := by simpa [Claims.readsReg] using h
    rw [completedState, hread hx, hread hy]
    exact hwrite s x _
  | jeq x y n | jne x y n =>
    obtain ⟨hx, hy⟩ : r ≠ x ∧ r ≠ y := by simpa [Claims.readsReg] using h
    rw [completedState, hread hx, hread hy]
    exact .inl rfl
  | store x y n | push x y n =>
    rw [completedState, hread (by simpa [Claims.readsReg] using h)]
    exact .inl rfl
  | load x y n => exact hwrite s x _
  | pop x y n => exact hwrite (s.setSp (s.sp + 2#16)) x _
  | int x y n => exact (serviceState_setReg s v h).imp (congrArg State.advance) (congrArg State.advance)
  | jmp x y n | call x y n | ret x y n | extended x y n => exact .inl rfl

/-- No register decides whether an instruction raises. -/
theorem raisedError_setReg (i : Instr) (s : State) (r : Reg) (v : Word) :
    raisedError i (s.setReg r v) = raisedError i s := by
  cases i <;> rfl

/-- `exec` after a change of a register the instruction does not read. -/
theorem exec_setReg {i : Instr} {s t t' : State} {r : Reg} {v : Word} (h : Claims.readsReg i r = false)
    (hexec : exec i s = .next t) (hexec' : exec i (s.setReg r v) = .next t') : t' = t.setReg r v ∨ t' = t := by
  obtain rfl := next_inj ((exec_eq i s).symm.trans hexec)
  obtain rfl := next_inj ((exec_eq i _).symm.trans hexec')
  rw [raisedError_setReg]
  cases raisedError i s with
  | none => exact completedState_setReg s v h
  | some e => exact .inl rfl

/-- Settles O33: the frame of the writes, and the two outcomes of a change of an unread register. -/
theorem registersReadAndWritten : Obligations.RegistersReadAndWritten := by
  refine ⟨fun i s t r hexec h => ?_, fun i s t t' r v h hexec hexec' => ?_⟩
  · obtain ⟨e, rfl⟩ | rfl := exec_cases hexec
    · rfl
    · exact completedState_reg_of_not_writes h
  · obtain rfl | rfl := exec_setReg h hexec hexec'
    · rw [State.setReg_reg_self]
      exact ⟨rfl, .inl rfl⟩
    · exact ⟨(State.setReg_reg_id t' r).symm, .inr rfl⟩

end Sys2Proof.Machine
end

section
/-! Proofs for spec 20_memory.md: what a stored word leaves to a load and to a fetch (R34, R40, R43), who writes memory (R38),
the order of the stack (R36, R37), the causes of `AddressOutOfRange` (R47), and the host's operations on a running machine
(R45). -/

namespace Sys2Proof.Machine

/-! ### A stored word, read back -/

/-- The bytes of memory after a word is stored at `a` (R34). -/
theorem Memory.read_setWord (m : Memory) (a v : Word) (b : Nat) :
    (m.setWord a v).read b = if b = a.toNat then highByte v else if b = a.toNat + 1 then lowByte v else m.read b :=
  read_writeWord m a.toNat b v

/-- A stored word changes no byte but its two (R32). -/
theorem Memory.read_setWord_ne (m : Memory) (v : Word) {a : Word} {b : Nat} (h : b ≠ a.toNat) (h' : b ≠ a.toNat + 1) :
    (m.setWord a v).read b = m.read b := by
  rw [Memory.read_setWord, if_neg h, if_neg h']

/-- The word at the address just stored to is the word stored (R40). -/
@[simp] theorem Memory.word_setWord (m : Memory) (a v : Word) : (m.setWord a v).word a = v := by
  simp [Memory.word, Memory.read_setWord]

/-- Memories that read the same at an address and the next hold the same word there. -/
theorem Memory.word_congr {m n : Memory} {a : Word} (h : ∀ b, a.toNat ≤ b → m.read b = n.read b) : m.word a = n.word a := by
  rw [Memory.word, Memory.word, h _ (Nat.le_refl _), h _ (Nat.le_succ _)]

/-- Settles O15: STORE leaves the word in memory, and LOAD takes it from there. -/
theorem loadAfterStore : Obligations.LoadAfterStore := by
  intro s rx ry qx qy imm himm
  refine ⟨_, _, execStore_ok rx ry imm s himm, execLoad_ok qx qy imm _ himm, ?_⟩
  calc _ = (s.mem.setWord imm (s.reg rx)).word imm := State.setReg_reg_self _ qx _
    _ = s.reg rx := Memory.word_setWord ..

/-- A fetch with its four bytes inside memory delivers the instruction they decode to (R71). -/
theorem fetch_ok {s : State} (h : s.pc.toNat ≤ 4092) : fetch s = .ok (Claims.instrAt s) := by
  rw [fetch, memRead4_ok _ _ h]
  rfl

/-- The bytes a STORE is to leave are those of the memory with the word stored. -/
theorem byteAfterStore_eq_read (s : State) (a v : Word) (b : Nat) :
    Claims.byteAfterStore s a.toNat v b = (s.mem.setWord a v).read b :=
  (s.mem.read_setWord a v b).symm

/-- Settles O16: a fetch reads the memory that STORE leaves. -/
theorem storeIsSeenByFetch : Obligations.StoreIsSeenByFetch := by
  intro s t rx ry imm p himm hp hexec
  obtain rfl := next_inj ((execStore_ok rx ry imm s himm).symm.trans hexec)
  simp only [byteAfterStore_eq_read]
  exact fetch_ok hp

/-! ### Who writes memory -/

@[simp] theorem serviceState_mem (v : Word) (s : State) : (serviceState v s).mem = s.mem := by
  unfold serviceState; split_ifs <;> rfl

/-- A completed instruction keeps memory, or stores one word at its store address. -/
theorem completedState_mem_cases (i : Instr) (s : State) :
    (Claims.storeAddr i s = none ∧ (completedState i s).mem = s.mem) ∨
    ∃ a v : Word, Claims.storeAddr i s = some a.toNat ∧ (completedState i s).mem = s.mem.setWord a v := by
  cases i with
  | store x y v => exact .inr ⟨v, s.reg x, rfl, rfl⟩
  | push x y v => exact .inr ⟨s.pushAddr, s.reg x, rfl, rfl⟩
  | call x y v => exact .inr ⟨s.pushAddr, s.nextPc, rfl, rfl⟩
  | int x y v => exact .inl ⟨rfl, serviceState_mem v s⟩
  | _ => exact .inl ⟨rfl, rfl⟩

/-- Settles O35: a raise keeps memory, and a completed instruction stores at most the word at its store address. -/
theorem memoryFrame : Obligations.MemoryFrame := by
  intro i s t hexec
  obtain ⟨e, rfl⟩ | rfl := exec_cases hexec
  · exact ⟨fun _ _ => rfl, fun _ _ _ _ _ => rfl⟩
  obtain ⟨haddr, hmem⟩ | ⟨a, v, haddr, hmem⟩ := completedState_mem_cases i s
  · exact ⟨fun _ b => by rw [hmem], fun a ha => by simp [haddr] at ha⟩
  · refine ⟨fun hnone => by simp [haddr] at hnone, fun a' ha' b hb hb' => ?_⟩
    obtain rfl : a.toNat = a' := Option.some.inj (haddr.symm.trans ha')
    rw [hmem, Memory.read_setWord_ne _ _ hb hb']

/-! ### The causes of an address error -/

/-- From a state without an error, the error latched after an instruction is the one it raised (R24, R150). -/
theorem exec_error {i : Instr} {s t : State} (herr : s.error = none) (hexec : exec i s = .next t) :
    t.error = raisedError i s := by
  obtain rfl := next_inj ((exec_eq i s).symm.trans hexec)
  cases raisedError i s with
  | none => exact (completedState_error i s).trans herr
  | some e => rfl

/-- An access of two bytes errs exactly above 4094, and records its address (R31, R32). -/
theorem rangeError_eq_some_iff (v a : Word) :
    rangeError v = some (.addressOutOfRange a) ↔ 4094 < v.toNat ∧ a = v := by
  unfold rangeError
  split
  · next h => exact ⟨nofun, fun ⟨hlt, _⟩ => absurd h (Nat.not_le.mpr hlt)⟩
  · next h => simp [Nat.lt_of_not_le h, eq_comm]

/-- Settles O37: the error latched is the one raised, and six instructions raise that of an access. -/
theorem addressErrorCauses : Obligations.AddressErrorCauses := by
  intro i s t a herr hexec
  rw [exec_error herr hexec]
  cases i with
  | load x y v | store x y v =>
    suffices 4094 < v.toNat ∧ a = v ↔ v = a ∧ 4094 < a.toNat by simpa [raisedError, rangeError_eq_some_iff]
    exact ⟨by rintro ⟨h, rfl⟩; exact ⟨rfl, h⟩, by rintro ⟨rfl, h⟩; exact ⟨h, rfl⟩⟩
  | push x y v | call x y v => simp [raisedError, rangeError_eq_some_iff]
  | pop x y v | ret x y v => simp [raisedError, rangeError_eq_some_iff]
  | _ => simp [raisedError]

/-! ### The stack -/

/-- A push that succeeds stores its word right below the old `sp`, where the new one points; with `sp` below 2 it would wrap
and be refused (R36). -/
theorem push_ok_inv {s t : State} {v : Word} (h : push s v = .ok t) :
    s.pushAddr.toNat ≤ 4094 ∧ s.pushAddr.toNat + 2 = s.sp.toNat ∧
      t = (s.setMem (s.mem.setWord s.pushAddr v)).setSp s.pushAddr := by
  by_cases hroom : s.pushAddr.toNat ≤ 4094
  · rw [push_ok s v hroom] at h
    refine ⟨hroom, ?_, (Except.ok.inj h).symm⟩
    rw [State.pushAddr_eq] at hroom ⊢
    bv_omega
  · rw [push_error s v (Nat.lt_of_not_le hroom)] at h
    cases h

/-- Pushes that all succeed end in a last state reached from the one after the first push. -/
theorem pushAll_cons_inv {v : Word} {vs : List Word} {s t : State} (h : Claims.pushAll (v :: vs) s = .ok t) :
    ∃ s', push s v = .ok s' ∧ Claims.pushAll vs s' = .ok t := by
  rw [Claims.pushAll] at h
  split at h
  · exact ⟨_, ‹_›, h⟩
  · cases h

/-- Pushes change `sp` and memory alone, and memory only below the `sp` they start from (R36). -/
theorem pushAll_frame {vs : List Word} {s t : State} (h : Claims.pushAll vs s = .ok t) :
    t = (s.setMem t.mem).setSp t.sp ∧ ∀ a, s.sp.toNat ≤ a → t.mem.read a = s.mem.read a := by
  induction vs generalizing s with
  | nil =>
    obtain rfl := Except.ok.inj h
    exact ⟨rfl, fun _ _ => rfl⟩
  | cons v vs ih =>
    obtain ⟨s', hpush, hrest⟩ := pushAll_cons_inv h
    obtain ⟨-, hsp, rfl⟩ := push_ok_inv hpush
    obtain ⟨hstate, hread⟩ := ih hrest
    refine ⟨hstate, fun a ha => ?_⟩
    calc t.mem.read a = (s.mem.setWord s.pushAddr v).read a := hread a (show s.pushAddr.toNat ≤ a by omega)
      _ = s.mem.read a := Memory.read_setWord_ne _ _ (by omega) (by omega)

/-- One more pop comes last. -/
theorem popMany_succ {n : Nat} {s t u : State} {ws : List Word} {v : Word} (h : Claims.popMany n s = .ok (ws, t))
    (hpop : pop t = .ok (v, u)) : Claims.popMany (n + 1) s = .ok (ws ++ [v], u) := by
  induction n generalizing s ws with
  | zero =>
    cases h
    simp [Claims.popMany, hpop]
  | succ n ih =>
    rw [Claims.popMany] at h
    split at h
    · cases h
    next w s' hfirst =>
      split at h
      next ws' t' hrest =>
        cases h
        rw [Claims.popMany, hfirst]
        simp only [ih hrest, List.cons_append]
      · cases h

/-- A pop at the address of a push, once memory from there upward is again as the push left it, gives the word pushed and
the `sp` before the push (R37). -/
theorem pop_of_push {s s' t : State} {v : Word} (hpush : push s v = .ok s')
    (hread : ∀ a, s'.sp.toNat ≤ a → t.mem.read a = s'.mem.read a) : pop (t.setSp s'.sp) = .ok (v, t.setSp s.sp) := by
  obtain ⟨hroom, -, rfl⟩ := push_ok_inv hpush
  have hword : t.mem.word s.pushAddr = v := (Memory.word_congr hread).trans (Memory.word_setWord ..)
  have hsp : s.pushAddr + 2#16 = s.sp := by rw [State.pushAddr_eq]; bv_omega
  calc pop (t.setSp s.pushAddr) = .ok (t.mem.word s.pushAddr, t.setSp (s.pushAddr + 2#16)) := pop_ok _ hroom
    _ = .ok (v, t.setSp s.sp) := by rw [hword, hsp]

/-- Popping what was pushed gives the words in reverse order, and changes `sp` alone. -/
theorem popMany_of_pushAll {vs : List Word} {s t : State} (h : Claims.pushAll vs s = .ok t) :
    Claims.popMany vs.length t = .ok (vs.reverse, t.setSp s.sp) := by
  induction vs generalizing s with
  | nil =>
    obtain rfl := Except.ok.inj h
    rfl
  | cons v vs ih =>
    obtain ⟨s', hpush, hrest⟩ := pushAll_cons_inv h
    rw [List.length_cons, List.reverse_cons]
    exact popMany_succ (ih hrest) (pop_of_push hpush (pushAll_frame hrest).2)

/-- Settles O26, by the induction of `popMany_of_pushAll`; what the pushes leave unchanged is their frame's. -/
theorem stackIsLifo : Obligations.StackIsLifo := by
  intro vs s t hpush
  obtain ⟨hstate, hread⟩ := pushAll_frame hpush
  refine ⟨t.setSp s.sp, popMany_of_pushAll hpush, rfl, ?_⟩
  rw [hstate]
  exact ⟨fun _ => rfl, rfl, ⟨⟨rfl, rfl, rfl⟩, rfl, rfl, rfl⟩, ⟨rfl, rfl, rfl⟩, fun _ => rfl, hread⟩

/-! ### The host's operations on a running machine -/

/-- Settles O55: each of the four operations asks first whether the machine is stopped. -/
theorem hostOperationsNeedAStoppedMachine : Obligations.HostOperationsNeedAStoppedMachine := by
  intro base s bytes a n p hrun
  exact ⟨whenStopped_running s _ hrun, whenStopped_running s _ hrun, whenStopped_running s _ hrun,
    whenStopped_running s _ hrun⟩

end Sys2Proof.Machine
end

section
/-! Proofs for spec 30_encoding.md: the decoder reads the fields of R51, the encoder is its inverse up to the reserved byte
(R52, R53, R56), the opcode map (R55), the fields an instruction ignores (R57), that no step is undefined (R58), and the
assembler's relative offset (R64). -/

namespace Sys2Proof

/-! ### The register numbers -/

theorem Reg.number_lt (r : Reg) : r.number < 4 := by
  cases r <;> decide

@[simp] theorem Reg.bits_toNat (r : Reg) : r.bits.toNat = r.number := by
  cases r <;> rfl

@[simp] theorem Reg.ofBits_bits (r : Reg) : Reg.ofBits r.bits = r := by
  cases r <;> rfl

@[simp] theorem Reg.number_ofBits (b : BitVec 2) : (Reg.ofBits b).number = b.toNat := by
  revert b; decide

theorem Reg.number_injective {x y : Reg} (h : x.number = y.number) : x = y := by
  have hbits : x.bits = y.bits := BitVec.eq_of_toNat_eq (by rw [x.bits_toNat, y.bits_toNat, h])
  rw [← x.ofBits_bits, hbits, y.ofBits_bits]

/-! ### An instruction and its fields -/

theorem Instr.opcode_lt (i : Instr) : i.opcode < 16 := by
  cases i <;> simp [Instr.opcode]

/-- R55's table read from the instruction's side: its opcode and operands stand for it. -/
theorem Instr.ofFields_opcode (i : Instr) : Instr.ofFields (BitVec.ofNat 4 i.opcode) i.rx i.ry i.imm = i := by
  cases i <;> rfl

/-- R55's table read from the number's side: each of the sixteen stands for an instruction with that opcode. -/
theorem Instr.fields_ofFields (op : BitVec 4) (x y : Reg) (v : Word) :
    (Instr.ofFields op x y v).fields = { op := op.toNat, rx := x.number, ry := y.number, imm := v.toNat } := by
  have hop : op.toNat < 16 := op.isLt
  unfold Instr.ofFields
  split
  case h_16 =>
    have h15 : op.toNat = 15 := by grind
    rw [h15]; rfl
  all_goals next h => rw [h]; rfl

/-- The four numbers tell instructions apart. -/
theorem Instr.fields_injective {i j : Instr} (h : i.fields = j.fields) : i = j := by
  obtain ⟨hop, hrx, hry, himm⟩ := Fields.mk.inj h
  rw [← i.ofFields_opcode, ← j.ofFields_opcode, hop, Reg.number_injective hrx, Reg.number_injective hry,
    BitVec.eq_of_toNat_eq himm]

/-! ### The decoder in arithmetic -/

@[simp] theorem opField_toNat (b : Byte) : (opField b).toNat = b.toNat / 16 := by
  have hb : b.toNat < 256 := b.isLt
  rw [opField, BitVec.extractLsb'_toNat, Nat.shiftRight_eq_div_pow]
  omega

@[simp] theorem rxField_number (b : Byte) : (rxField b).number = b.toNat / 4 % 4 := by
  rw [rxField, Reg.number_ofBits, BitVec.extractLsb'_toNat, Nat.shiftRight_eq_div_pow]

@[simp] theorem ryField_number (b : Byte) : (ryField b).number = b.toNat % 4 := by
  rw [ryField, Reg.number_ofBits, BitVec.extractLsb'_toNat, Nat.shiftRight_zero]

@[simp] theorem immField_toNat (h l : Byte) : (immField h l).toNat = h.toNat * 256 + l.toNat :=
  Machine.joinBytes_toNat h l

theorem decodeByte0_eq (b : Byte) : decodeByte0 b = (b.toNat / 16, b.toNat / 4 % 4, b.toNat % 4) := by
  rw [decodeByte0, opField_toNat, rxField_number, ryField_number]

/-- Settles O1: the fields of `Instr.ofFields` are its arguments, and these are the four extractions in arithmetic. -/
theorem decodeReadsTheFields : Obligations.DecodeReadsTheFields := by
  intro b0 b1 b2 b3
  rw [decode, Instr.fields_ofFields, opField_toNat, rxField_number, ryField_number, immField_toNat]

/-- An instruction whose numbers are those of a word is what the word decodes to. -/
theorem decode_eq_of_fields {b0 b1 b2 b3 : Byte} {i : Instr} (hb0 : b0.toNat = i.opcode * 16 + i.rx.number * 4 + i.ry.number)
    (himm : b2.toNat * 256 + b3.toNat = i.imm.toNat) : decode b0 b1 b2 b3 = i := by
  have hrx := i.rx.number_lt
  have hry := i.ry.number_lt
  apply Instr.fields_injective
  rw [decodeReadsTheFields, himm, hb0]
  rw [Instr.fields, Fields.mk.injEq]
  omega

/-! ### The encoder in arithmetic -/

/-- The codec's byte: each input is masked, and the three parts do not overlap (R53). -/
theorem encodeByte0_toNat (op x y : Nat) : (encodeByte0 op x y).toNat = op % 16 * 16 + x % 4 * 4 + y % 4 := by
  have hop : op &&& 0xF = op % 16 := Nat.and_two_pow_sub_one_eq_mod op 4
  have hx : x &&& 0x3 = x % 4 := Nat.and_two_pow_sub_one_eq_mod x 2
  have hy : y &&& 0x3 = y % 4 := Nat.and_two_pow_sub_one_eq_mod y 2
  have hlow : (x % 4) <<< 2 ||| y % 4 = x % 4 * 4 + y % 4 := by
    rw [← Nat.shiftLeft_add_eq_or_of_lt (Nat.mod_lt y (by decide)), Nat.shiftLeft_eq]
  have hbyte : (op % 16) <<< 4 ||| (x % 4 * 4 + y % 4) = op % 16 * 16 + (x % 4 * 4 + y % 4) := by
    rw [← Nat.shiftLeft_add_eq_or_of_lt (by omega), Nat.shiftLeft_eq]
  rw [encodeByte0, BitVec.toNat_ofNat, hop, hx, hy, Nat.or_assoc, hlow, hbyte]
  omega

/-- Byte 0 of an instruction, whose numbers are in range. -/
theorem encodeByte0_instr_toNat (i : Instr) :
    (encodeByte0 i.opcode i.rx.number i.ry.number).toNat = i.opcode * 16 + i.rx.number * 4 + i.ry.number := by
  rw [encodeByte0_toNat, Nat.mod_eq_of_lt i.opcode_lt, Nat.mod_eq_of_lt i.rx.number_lt, Nat.mod_eq_of_lt i.ry.number_lt]

/-- The encoder with its operand bytes by name: the ones STORE writes (R34, R53). -/
theorem encode_eq (i : Instr) :
    encode i = [encodeByte0 i.opcode i.rx.number i.ry.number, 0#8, Machine.highByte i.imm, Machine.lowByte i.imm] := rfl

theorem encode_map_toNat (i : Instr) : (encode i).map BitVec.toNat =
    [i.opcode * 16 + i.rx.number * 4 + i.ry.number, 0, i.imm.toNat / 256, i.imm.toNat % 256] := by
  simp [encode_eq, encodeByte0_instr_toNat, Machine.highByte_toNat, Machine.lowByte_toNat]

theorem decodeByte0_encodeByte0 {op x y : Nat} (hop : op < 16) (hx : x < 4) (hy : y < 4) :
    decodeByte0 (encodeByte0 op x y) = (op, x, y) := by
  rw [decodeByte0_eq, encodeByte0_toNat, Prod.mk.injEq, Prod.mk.injEq]
  omega

theorem encodeByte0_decodeByte0 (b : Byte) :
    encodeByte0 (decodeByte0 b).1 (decodeByte0 b).2.1 (decodeByte0 b).2.2 = b := by
  have hb : b.toNat < 256 := b.isLt
  apply BitVec.eq_of_toNat_eq
  simp only [encodeByte0_toNat, decodeByte0_eq]
  omega

/-! ### Decoder and encoder are inverse -/

/-- The four bytes of an instruction carry its numbers, and the numbers determine it. -/
theorem decode_encodedBytes (i : Instr) :
    decode (encodeByte0 i.opcode i.rx.number i.ry.number) 0#8 (Machine.highByte i.imm) (Machine.lowByte i.imm) = i := by
  apply decode_eq_of_fields (encodeByte0_instr_toNat i)
  rw [← Machine.joinBytes_toNat, Machine.joinBytes_high_low]

/-- Settles O3: a byte sequence that begins with an encoding begins with the four bytes of `decode_encodedBytes`. -/
theorem decodeAfterEncode : Obligations.DecodeAfterEncode := by
  intro i rest
  rw [encode_eq]
  exact congrArg (fun j => Except.ok (j, rest)) (decode_encodedBytes i)

/-- Settles O2: the four clauses, each byte by its arithmetic. -/
theorem codecRoundTrip : Obligations.CodecRoundTrip :=
  ⟨encodeByte0_toNat, fun _ _ _ => decodeByte0_encodeByte0, encodeByte0_decodeByte0, encode_map_toNat⟩

/-- Settles O4: the bytes emitted for the decoded numbers are, as numbers, the bytes read. -/
theorem encodeAfterDecode : Obligations.EncodeAfterDecode := by
  intro b0 b1 b2 b3
  obtain ⟨hop, hrx, hry, himm⟩ := Fields.mk.inj (decodeReadsTheFields b0 b1 b2 b3)
  have hb3 : b3.toNat < 256 := b3.isLt
  apply List.map_injective_iff.mpr (fun _ _ => BitVec.eq_of_toNat_eq)
  rw [encode_map_toNat, hop, hrx, hry, himm]
  simp only [List.map_cons, List.map_nil, List.cons.injEq]
  exact ⟨by omega, rfl, by omega, by omega, trivial⟩

/-! ### The opcode map -/

/-- The first byte as the number its three fields make (R51). -/
theorem byte0_toNat (op : BitVec 4) (x y : Reg) :
    (op ++ x.bits ++ y.bits : Byte).toNat = op.toNat * 16 + x.number * 4 + y.number := by
  rw [BitVec.toNat_append, ← Nat.shiftLeft_add_eq_or_of_lt y.bits.isLt, BitVec.toNat_append,
    ← Nat.shiftLeft_add_eq_or_of_lt x.bits.isLt, Nat.shiftLeft_eq, Nat.shiftLeft_eq, Reg.bits_toNat, Reg.bits_toNat]
  omega

/-- An opcode number encodes a constructor that has this number and carries its arguments as its fields. -/
theorem encodedAs_of_fields {op : BitVec 4} {mk : Reg → Reg → Word → Instr}
    (h : ∀ x y v, (mk x y v).fields = { op := op.toNat, rx := x.number, ry := y.number, imm := v.toNat }) :
    Claims.EncodedAs op mk := by
  intro x y b1 b2 b3
  obtain ⟨hop, hrx, hry, himm⟩ := Fields.mk.inj (h x y (b2 ++ b3))
  apply decode_eq_of_fields
  · rw [byte0_toNat, hop, hrx, hry]
  · rw [himm]
    exact (Machine.joinBytes_toNat b2 b3).symm

/-- Settles O5: each of the sixteen constructors has the number of its row. -/
theorem opcodeMap : Obligations.OpcodeMap := by
  refine ⟨?mov, ?add, ?sub, ?mul, ?div, ?load, ?store, ?jmp, ?jeq, ?jne, ?call, ?ret, ?push, ?pop, ?int, ?extended⟩
  all_goals exact encodedAs_of_fields fun _ _ _ => rfl

/-- Settles O6: ten closed words, each evaluated by the decoder. -/
theorem sampleWordsDecode : Obligations.SampleWordsDecode := by
  unfold Obligations.SampleWordsDecode
  decide

end Sys2Proof

namespace Sys2Proof.Machine

/-! ### The fields an instruction ignores -/

/-- MOV reads its operand only where the field `ry` is 0 (R57, R85). -/
theorem movSource_unused_imm (s : State) (y : Reg) (v : Word) :
    movSource s y (if y = .r0 then v else 0) = movSource s y v := by
  unfold movSource
  split <;> rfl

/-- The meaning of an instruction does not use the fields that R57's table leaves out. -/
theorem exec_canonical (i : Instr) (s : State) : exec i.canonical s = exec i s := by
  cases i with
  | mov x y v =>
    simp only [Instr.canonical, exec, execMov, movSource_unused_imm]
  | _ => rfl

/-- No other instruction has the guard's instruction `MOV R0, #0` as its canonical form: MOV with the field `ry` 0 uses all
its fields. -/
theorem canonical_eq_mov_zero_iff (i : Instr) : i.canonical = .mov .r0 .r0 0#16 ↔ i = .mov .r0 .r0 0#16 := by
  cases i with
  | mov x y v =>
    cases y with
    | r0 => exact Iff.rfl
    | _ => simp [Instr.canonical]
  | _ => simp [Instr.canonical]

/-- Settles O7: arm by arm for `exec`, by the one counted instruction for the guard. -/
theorem unusedFieldsAreIgnored : Obligations.UnusedFieldsAreIgnored := by
  refine fun i s => ⟨exec_canonical i s, ?_⟩
  rw [Bool.eq_iff_iff, isRunawayPattern_iff, isRunawayPattern_iff]
  exact canonical_eq_mov_zero_iff i

/-! ### The relative offset -/

/-- The relative target as a 16-bit sum: sign extension does not matter modulo 65536 (R14, R100). -/
theorem relTarget_eq (a imm : Word) : relTarget a imm = a + 4#16 + imm := by
  have hrel := relTarget_toNat a imm
  rw [BitVec.toInt_eq_toNat_cond] at hrel
  apply BitVec.eq_of_toNat_eq
  rw [BitVec.toNat_add, BitVec.toNat_add, BitVec.toNat_ofNat]
  split at hrel <;> omega

/-- The assembler's offset as a 16-bit difference (R64). -/
theorem relOffset_eq (a target : Word) : relOffset a target = target - (a + 4#16) := by
  have hoff : ((relOffset a target).toNat : Int) = _ := narrow_toNat _
  apply BitVec.eq_of_toNat_eq
  rw [BitVec.toNat_sub, BitVec.toNat_add, BitVec.toNat_ofNat]
  omega

/-- Settles O22: the 16-bit sum undoes the 16-bit difference. -/
theorem relativeOffsetIsInverse : Obligations.RelativeOffsetIsInverse := by
  intro a target
  rw [relTarget_eq, relOffset_eq, BitVec.add_comm, BitVec.sub_add_cancel]

/-! ### No step is undefined -/

/-- Settles O47: the step answers a next state on each of its branches, the instruction's own by `exec_outcome`. -/
theorem everyStepHasANextState : Obligations.EveryStepHasANextState := by
  intro s
  unfold step cycle
  split
  · split
    · exact ⟨_, rfl⟩
    · next i hfetch =>
      split
      · exact ⟨_, rfl⟩
      · obtain ⟨u, hexec, -⟩ := exec_outcome i (guardCount i s)
        exact ⟨endOfStep u, by rw [hexec, finish]⟩
  · exact ⟨_, rfl⟩

end Sys2Proof.Machine
end

section
/-! Proofs for spec 40_execution_cycle.md: the parts of the step (R70), the fetch (R71), the guard (R74), the end-of-step checks
(R77, R78), and the ways a run ends (R79). -/

namespace Sys2Proof.Machine

/-! ### The step by its parts -/

/-- A fetch with a byte above the end of memory is refused, and `pc` recorded (R71). -/
theorem fetch_error {s : State} (h : 4092 < s.pc.toNat) : fetch s = .error (.addressOutOfRange s.pc) := by
  rw [fetch, memRead4_error _ _ h]

theorem step_of_stopped {s : State} (hstop : s.running = false) : step s = .next s := by
  rw [step, cycle, if_neg (by simp [hstop])]

/-- Part (a) of the step, where it raises (R70, R71). -/
theorem step_of_fetch_error {s : State} {e : ExecError} (hrun : s.running = true) (hfetch : fetch s = .error e) :
    step s = .next (raise s e) := by
  rw [step, cycle, if_pos hrun, hfetch]

/-- Parts (d) to (f) of the step, where neither the fetch nor the guard raises (R70). -/
theorem step_of_fetch_ok {s : State} {i : Instr} (hrun : s.running = true) (hfetch : fetch s = .ok i)
    (hguard : ¬ (i = .mov .r0 .r0 0#16 ∧ 1 ≤ s.nopCount)) : step s = finish (exec i (guardCount i s)) := by
  rw [step, cycle, if_pos hrun, hfetch]
  exact if_neg fun hraises => hguard ((guardRaises_iff i s).mp hraises)

/-- Settles O46: the last branch of the step. -/
theorem stoppedMachineKeepsItsState : Obligations.StoppedMachineKeepsItsState :=
  fun _ => step_of_stopped

/-- Settles O42: the fetch on both sides of 4092, and the step on a refused one. -/
theorem fetchReadsFourBytes : Obligations.FetchReadsFourBytes :=
  fun _ => ⟨fetch_ok, fun hpc hrun => step_of_fetch_error hrun (fetch_error hpc)⟩

/-- Settles O40: the fetch succeeds, the guard does not raise, and the instruction runs with the guard's count updated. -/
theorem stepRunsDecodedInstruction : Obligations.StepRunsDecodedInstruction := by
  rintro s i hrun hpc rfl hguard
  rw [← guardCount_eq]
  exact step_of_fetch_ok hrun (fetch_ok hpc) hguard

/-! ### The end of the step -/

/-- An instruction that raised ends the step (R70). -/
theorem endOfStep_of_error {t : State} (h : t.error ≠ none) : endOfStep t = t :=
  if_pos (Option.isSome_iff_ne_none.mpr h)

/-- Settles O41: after a raise nothing; else each of the three ends of `endOfStep_cases`, which differ in `running` and the two
latches alone. -/
theorem endOfStepChecks : Obligations.EndOfStepChecks := by
  intro t
  refine ⟨fun herr => congrArg _ (endOfStep_of_error herr), fun herr => ⟨endOfStep t, rfl, ?_⟩⟩
  have hlimit : limitReached (countInstr t) = true ↔ ∃ n, t.limit = some n ∧ n ≤ t.execCount + 1 := limitReached_iff _
  obtain ⟨hraised, _⟩ | ⟨_, hlim, heq⟩ | ⟨_, hlim, hrun, hpc, heq⟩ | ⟨_, hlim, hpc, heq⟩ := endOfStep_cases t
  · simp [herr] at hraised
  all_goals
    rw [heq]
    refine ⟨rfl, rfl, rfl, rfl, rfl, fun _ => rfl, fun _ => rfl, ⟨rfl, rfl, rfl⟩, ?_⟩
  · rw [if_pos (hlimit.mp hlim)]
    exact ⟨rfl, rfl, rfl⟩
  · rw [if_neg (by simp [← hlimit, hlim]), if_pos ⟨hrun, hpc⟩]
    exact ⟨rfl, herr, rfl⟩
  · rw [if_neg (by simp [← hlimit, hlim]), if_neg fun ⟨hrun, hge⟩ => Nat.not_le.mpr (hpc hrun) hge]
    exact ⟨rfl, herr, rfl⟩

/-! ### The ends of a run -/

theorem rangeError_eq_some {a : Word} {e : ExecError} (h : rangeError a = some e) : e = .addressOutOfRange a := by
  unfold rangeError at h
  split at h
  · cases h
  · exact (Option.some.inj h).symm

/-- The errors an instruction can raise, with the instruction of an unknown interrupt (R121). -/
theorem raisedError_cases {i : Instr} {s : State} {e : ExecError} (h : raisedError i s = some e) :
    (∃ x y c, i = .int x y c ∧ e = .unknownInterrupt c) ∨ ∃ a, e = .addressOutOfRange a := by
  cases i with
  | load x y v | store x y v | push x y v | call x y v | pop x y v | ret x y v => exact .inr ⟨_, rangeError_eq_some h⟩
  | int x y v =>
    simp only [raisedError] at h
    split at h
    · exact .inl ⟨x, y, v, rfl, (Option.some.inj h).symm⟩
    · cases h
  | _ => cases h

/-- Of the services only 0 stops the machine (R116). -/
theorem serviceState_run (v : Word) (s : State) :
    ((serviceState v s).running = s.running ∧ (serviceState v s).haltCause = s.haltCause) ∨
    (v = 0#16 ∧ (serviceState v s).haltCause = some .intHalt) := by
  unfold serviceState
  split_ifs with h0
  · exact .inr ⟨h0, rfl⟩
  all_goals exact .inl ⟨rfl, rfl⟩

/-- Of the instructions that complete only INT 0 stops the machine (R75, R116). -/
theorem completedState_run (i : Instr) (s : State) :
    ((completedState i s).running = s.running ∧ (completedState i s).haltCause = s.haltCause) ∨
    ((∃ x y, i = .int x y 0#16) ∧ (completedState i s).haltCause = some .intHalt ∧
      (completedState i s).pc = s.pc + 4#16) := by
  cases i with
  | int x y v =>
    obtain hkept | ⟨rfl, hcause⟩ := serviceState_run v s
    · exact .inl hkept
    · exact .inr ⟨⟨x, y, rfl⟩, hcause, s.nextPc_eq⟩
  | _ => exact .inl ⟨rfl, rfl⟩

/-- What an instruction does to the latches and `running`: it raises an error of its own, or it completes, and only INT 0
then stops the machine. -/
theorem exec_latch_cases {i : Instr} {s u : State} (hexec : exec i s = .next u) :
    (∃ x y c, i = .int x y c ∧ u = raise s (.unknownInterrupt c)) ∨ (∃ a, u = raise s (.addressOutOfRange a)) ∨
    (u.error = s.error ∧ ((u.running = s.running ∧ u.haltCause = s.haltCause) ∨
      ((∃ x y, i = .int x y 0#16) ∧ u.haltCause = some .intHalt ∧ u.pc = s.pc + 4#16))) := by
  obtain rfl := next_inj ((exec_eq i s).symm.trans hexec)
  cases hraise : raisedError i s with
  | some e =>
    obtain ⟨x, y, c, hint, rfl⟩ | ⟨a, rfl⟩ := raisedError_cases hraise
    · exact .inl ⟨x, y, c, hint, rfl⟩
    · exact .inr (.inl ⟨a, rfl⟩)
  | none => exact .inr (.inr ⟨completedState_error i s, completedState_run i s⟩)

/-- What the end of a step leaves of a completed instruction when the machine is then stopped: the limit's error, the end of
memory, or the stop of the instruction itself. -/
theorem endOfStep_stopped_cases {u : State} (herr : u.error = none) (hstop : (endOfStep u).running = false) :
    ((endOfStep u).error = some .instructionLimitExceeded ∧ (endOfStep u).haltCause = u.haltCause ∧
      (endOfStep u).pc = u.pc) ∨
    ((endOfStep u).error = none ∧ (endOfStep u).haltCause = some .endOfMemory ∧ 4096 ≤ (endOfStep u).pc.toNat) ∨
    ((endOfStep u).error = none ∧ (endOfStep u).haltCause = u.haltCause ∧ (endOfStep u).pc = u.pc ∧
      u.running = false) := by
  obtain ⟨hraised, _⟩ | ⟨_, _, heq⟩ | ⟨_, _, _, hpc, heq⟩ | ⟨_, _, _, heq⟩ := endOfStep_cases u
  · simp [herr] at hraised
  all_goals rw [heq] at hstop ⊢
  · exact .inl ⟨rfl, rfl, rfl⟩
  · exact .inr (.inl ⟨herr, rfl, hpc⟩)
  · exact .inr (.inr ⟨herr, rfl, rfl, hstop⟩)

/-- Settles O48: a refused fetch, the guard's error, an instruction's own error, or a completed instruction, which is stopped
by the checks at the end of the step unless it is INT 0. -/
theorem runEndsInATabledWay : Obligations.RunEndsInATabledWay := by
  intro s t hinv hrun hstep hstop
  have hcause : s.haltCause = none := hinv.haltStops hrun
  obtain ⟨hs, _⟩ | ⟨_, _, rfl⟩ | ⟨_, _, hfetch, rfl⟩ | ⟨_, i, u, hfetch, _, hexec, rfl⟩ := step_cases hstep
  · simp [hrun] at hs
  · exact .inr (.inr (.inr (.inr (.inl ⟨s.pc, rfl, hcause, rfl, fun _ => rfl⟩))))
  · obtain ⟨_, hinstr⟩ := fetch_ok_inv hfetch
    exact .inr (.inr (.inl ⟨rfl, hcause, rfl, hinstr.symm⟩))
  obtain ⟨hpc, hinstr⟩ : s.pc.toNat ≤ 4092 ∧ i = Claims.instrAt s := fetch_ok_inv hfetch
  rw [← hinstr]
  obtain ⟨x, y, c, hint, rfl⟩ | ⟨a, rfl⟩ | ⟨herr, hhow⟩ := exec_latch_cases hexec
  · exact .inr (.inr (.inr (.inl ⟨c, x, y, rfl, hcause, rfl, hint⟩)))
  · exact .inr (.inr (.inr (.inr (.inl ⟨a, rfl, hcause, rfl, fun h => absurd hpc (Nat.not_le.mpr h)⟩))))
  have herr : u.error = none := herr.trans (hinv.errorStops hrun)
  obtain ⟨hlimit, hkept, hpc⟩ | hend | ⟨hnone, hkept, hpc, hself⟩ := endOfStep_stopped_cases herr hstop
  · refine .inr (.inr (.inr (.inr (.inr ⟨hlimit, ⟨u, guardCount_eq i s ▸ hexec, herr, hpc⟩, ?_⟩))))
    rw [hkept]
    exact hhow.imp (fun ⟨_, hsame⟩ => hsame.trans hcause) fun ⟨hint, hhalt, _⟩ => ⟨hhalt, hint⟩
  · exact .inr (.inl hend)
  · obtain ⟨hsame, _⟩ | ⟨hint, hhalt, hnext⟩ := hhow
    · simp [hself, hrun] at hsame
    · exact .inl ⟨hnone, hkept.trans hhalt, hpc.trans hnext, hint⟩

end Sys2Proof.Machine
end

section
/-! Proofs for spec 41_mov_alu.md: MOV (R85) and the ALU instructions (R86 to R89), each as one register write followed by the
advance of `pc`. -/

namespace Sys2Proof.Machine

/-! ### The ALU's results as numbers -/

theorem aluAdd_toNat (a b : Word) : ((aluAdd a b).toNat : Int) = ((a.toNat : Int) + b.toNat) % 65536 := narrow_toNat _

theorem aluSub_toNat (a b : Word) : ((aluSub a b).toNat : Int) = ((a.toNat : Int) - b.toNat) % 65536 := narrow_toNat _

theorem aluMul_toNat (a b : Word) : ((aluMul a b).toNat : Int) = ((a.toNat : Int) * b.toNat) % 65536 := narrow_toNat _

/-- A quotient fits the register, so nothing is lost (R89). -/
theorem aluDiv_toNat (a b : Word) : (aluDiv a b).toNat = a.toNat / b.toNat := by
  rw [aluDiv_eq, BitVec.toNat_udiv]

/-! ### MOV's source -/

theorem movSource_r0 (s : State) (imm : Word) : movSource s .r0 imm = imm := if_pos rfl

theorem movSource_of_ne_r0 {s : State} {y : Reg} {imm : Word} (h : y ≠ .r0) : movSource s y imm = s.reg y := if_neg h

/-- The guard's test on a MOV, by its three fields (R74). -/
theorem isRunawayPattern_mov_iff (x y : Reg) (imm : Word) :
    isRunawayPattern (.mov x y imm) = true ↔ x = .r0 ∧ y = .r0 ∧ imm.toNat = 0 := by
  rw [isRunawayPattern_iff, Instr.mov.injEq, ← BitVec.toNat_inj]
  rfl

/-! ### Division by its zero test -/

theorem exec_div_of_ne_zero {s : State} {x y : Reg} {imm : Word} (h : (s.reg y).toNat ≠ 0) :
    exec (.div x y imm) s = .next (s.setReg x (aluDiv (s.reg x) (s.reg y))).advance :=
  if_neg fun hzero => h ((aluZeroDivisor_iff _).mp hzero)

/-- A zero divisor suppresses the write, which is to write back what the register holds (R89). -/
theorem exec_div_of_zero {s : State} {x y : Reg} {imm : Word} (h : (s.reg y).toNat = 0) :
    exec (.div x y imm) s = .next (s.setReg x (s.reg x)).advance := by
  rw [State.setReg_reg_id]
  exact if_pos ((aluZeroDivisor_iff _).mpr h)

/-! ### One register write and the advance of `pc` -/

/-- A register write followed by the advance leaves every other field as it was (R75, R85 to R89). -/
theorem writesReg_of_exec {i : Instr} {s : State} {r : Reg} {w : Word} {v : Int}
    (hexec : exec i s = .next (s.setReg r w).advance) (hv : (w.toNat : Int) = v) : Claims.WritesReg i s r v := by
  refine ⟨_, hexec, ?value, ?others, ?pc, rfl, fun _ => rfl, ?seq, ⟨rfl, rfl, rfl⟩⟩
  case value => rw [State.advance_reg, State.setReg_reg_self, hv]
  case others => exact fun q hq => State.setReg_reg_ne s r q w hq
  case pc => exact s.nextPc_eq
  case seq => exact ⟨⟨rfl, rfl, rfl⟩, rfl, rfl, rfl⟩

/-- Settles O8: MOV writes `movSource`, by the two cases of its field `ry`. -/
theorem movWritesSource : Obligations.MovWritesSource := by
  refine ⟨encodedAs_of_fields fun _ _ _ => rfl, isRunawayPattern_mov_iff, fun s x imm => ?_, fun s x y imm hy => ?_⟩
  · exact writesReg_of_exec rfl (by rw [movSource_r0])
  · exact writesReg_of_exec rfl (by rw [movSource_of_ne_r0 hy])

/-- Settles O9: ADD's one register write is of the sum modulo 65536. -/
theorem addWritesSum : Obligations.AddWritesSum :=
  ⟨encodedAs_of_fields fun _ _ _ => rfl, fun _ _ _ _ => writesReg_of_exec rfl (aluAdd_toNat _ _)⟩

/-- Settles O10: SUB's one register write is of the non-negative residue of the difference. -/
theorem subWritesDifference : Obligations.SubWritesDifference :=
  ⟨encodedAs_of_fields fun _ _ _ => rfl, fun _ _ _ _ => writesReg_of_exec rfl (aluSub_toNat _ _)⟩

/-- Settles O11: MUL's one register write is of the product modulo 65536. -/
theorem mulWritesLowProduct : Obligations.MulWritesLowProduct :=
  ⟨encodedAs_of_fields fun _ _ _ => rfl, fun _ _ _ _ => writesReg_of_exec rfl (aluMul_toNat _ _)⟩

/-- Settles O12: the divisor's contents decide between the quotient and the register's own contents. -/
theorem divWritesQuotient : Obligations.DivWritesQuotient := by
  refine ⟨encodedAs_of_fields fun _ _ _ => rfl, fun s x y imm hne => ?_, fun s x y imm hzero => ?_⟩
  · exact writesReg_of_exec (exec_div_of_ne_zero hne) (congrArg Nat.cast (aluDiv_toNat _ _))
  · exact writesReg_of_exec (exec_div_of_zero hzero) rfl

end Sys2Proof.Machine
end

section
/-! Proofs for spec 42_load_store.md: LOAD (R95) and STORE (R96), on both sides of the last address with two bytes in memory. -/

namespace Sys2Proof.Machine

/-! ### A word in memory as a number -/

/-- The big-endian word at an address, in arithmetic on its two bytes (R34). -/
theorem word_toNat (s : State) (a : Word) : (s.mem.word a).toNat = Claims.wordAt s a.toNat := joinBytes_toNat _ _

/-- A stored word leaves its two bytes, the high one first, and every other byte (R32, R34). -/
theorem storedAt_of_mem_eq_setWord {s t : State} {a v : Word} (hmem : t.mem = s.mem.setWord a v) :
    Claims.StoredAt s t a.toNat v.toNat := by
  unfold Claims.StoredAt
  rw [hmem]
  refine ⟨?high, ?low, fun _ => Memory.read_setWord_ne s.mem v⟩
  case high => rw [Memory.read_setWord, if_pos rfl, highByte_toNat]
  case low => rw [Memory.read_setWord, if_neg (Nat.succ_ne_self _), if_pos rfl, lowByte_toNat]

/-! ### An error raised -/

/-- A raise stops the machine with the error latched and changes nothing else (R150). -/
theorem raises_of_exec {i : Instr} {s : State} {e : ExecError} (hexec : exec i s = .next (raise s e)) :
    Claims.Raises i s e :=
  ⟨_, hexec, rfl, rfl, rfl, fun _ => rfl, rfl, rfl, fun _ => rfl, ⟨rfl, rfl, rfl⟩, ⟨rfl, rfl, rfl⟩⟩

/-- Settles O13: up to 4094 LOAD is one register write, of the word at its address; above it raises. -/
theorem loadReadsWord : Obligations.LoadReadsWord := by
  refine ⟨encodedAs_of_fields fun _ _ _ => rfl, fun s x y imm hin => ?_, fun s x y imm hout => ?_⟩
  · exact writesReg_of_exec (execLoad_ok x y imm s hin) (congrArg Nat.cast (word_toNat s imm))
  · exact raises_of_exec (execLoad_error x y imm s hout)

/-- Settles O14: up to 4094 STORE leaves the memory with the register's word stored, and advances; above it raises. -/
theorem storeWritesWord : Obligations.StoreWritesWord := by
  refine ⟨encodedAs_of_fields fun _ _ _ => rfl, fun s x y imm hin => ?_, fun s x y imm hout => ?_⟩
  · exact ⟨_, execStore_ok x y imm s hin, storedAt_of_mem_eq_setWord rfl, fun _ => rfl, s.nextPc_eq, rfl,
      ⟨⟨rfl, rfl, rfl⟩, rfl, rfl, rfl⟩, ⟨rfl, rfl, rfl⟩⟩
  · exact raises_of_exec (execStore_error x y imm s hout)

end Sys2Proof.Machine
end

section
/-! Proofs for spec 43_control_transfer.md: JMP (R100), JEQ (R101) and JNE (R102) as one write of `pc`; CALL (R103) and RET (R104)
on both sides of the last address with two bytes in memory. -/

namespace Sys2Proof.Machine

/-! ### One write of `pc` -/

/-- A write of `pc` leaves every other field as it was (R100 to R102). -/
theorem setsPc_of_exec {i : Instr} {s : State} {w : Word} {v : Int} (hexec : exec i s = .next (s.setPc w))
    (hv : (w.toNat : Int) = v) : Claims.SetsPc i s v :=
  ⟨_, hexec, hv, fun _ => rfl, rfl, fun _ => rfl, ⟨⟨rfl, rfl, rfl⟩, rfl, rfl, rfl⟩, ⟨rfl, rfl, rfl⟩⟩

theorem setsPc_of_exec_taken {i : Instr} {s : State} {taken : Bool} {imm : Word}
    (hexec : exec i s = .next (s.setPc (branchPc s taken imm))) (htaken : taken = true) :
    Claims.SetsPc i s (((s.pc.toNat : Int) + 4 + imm.toInt) % 65536) :=
  setsPc_of_exec hexec ((branchPc_toNat s taken imm).trans (if_pos htaken))

theorem setsPc_of_exec_untaken {i : Instr} {s : State} {taken : Bool} {imm : Word}
    (hexec : exec i s = .next (s.setPc (branchPc s taken imm))) (huntaken : ¬ taken = true) :
    Claims.SetsPc i s (((s.pc.toNat : Int) + 4) % 65536) :=
  setsPc_of_exec hexec ((branchPc_toNat s taken imm).trans (if_neg huntaken))

/-- JNE's condition: the ALU's `eq` inverted (R102). -/
theorem not_aluEq_iff (a b : Word) : (!aluEq a b) = true ↔ a ≠ b := by
  rw [Bool.not_eq_true', ← Bool.not_eq_true, aluEq_iff]

/-- Settles O17: JMP writes the relative target to `pc`. -/
theorem jmpIsRelative : Obligations.JmpIsRelative :=
  ⟨encodedAs_of_fields fun _ _ _ => rfl, fun s _ _ imm => setsPc_of_exec rfl (relTarget_toNat s.pc imm)⟩

/-- Settles O18: the ALU's `eq` on the two registers' contents decides JEQ's branch. -/
theorem jeqBranchesOnEqual : Obligations.JeqBranchesOnEqual := by
  refine ⟨encodedAs_of_fields fun _ _ _ => rfl, fun s x y imm heq => ?_, fun s x y imm hne => ?_⟩
  · exact setsPc_of_exec_taken rfl ((aluEq_iff _ _).mpr heq)
  · exact setsPc_of_exec_untaken rfl (mt (aluEq_iff _ _).mp hne)

/-- Settles O19: the inverted `eq` on the two registers' contents decides JNE's branch. -/
theorem jneBranchesOnUnequal : Obligations.JneBranchesOnUnequal := by
  refine ⟨encodedAs_of_fields fun _ _ _ => rfl, fun s x y imm hne => ?_, fun s x y imm heq => ?_⟩
  · exact setsPc_of_exec_taken rfl ((not_aluEq_iff _ _).mpr hne)
  · exact setsPc_of_exec_untaken rfl fun htaken => (not_aluEq_iff _ _).mp htaken heq

/-! ### The stack pointer as a number -/

theorem State.pushAddr_toNat (s : State) : (s.pushAddr.toNat : Int) = ((s.sp.toNat : Int) - 2) % 65536 := narrow_toNat _

/-- A pop inside memory moves `sp` up without a wrap (R37). -/
theorem sp_add_two_toNat {s : State} (h : s.sp.toNat ≤ 4094) : (s.sp + 2#16).toNat = s.sp.toNat + 2 := by
  bv_omega

/-- Settles O20: with room CALL leaves the memory with `A + 4` stored at the push address, the new `sp`, and jumps; without it
raises. -/
theorem callPushesAndJumps : Obligations.CallPushesAndJumps := by
  refine ⟨encodedAs_of_fields fun _ _ _ => rfl, State.pushAddr_toNat, fun s x y imm hin => ?_, fun s x y imm hout => ?_⟩
  · refine ⟨_, execCall_ok x y imm s hin, ?stored, rfl, rfl, fun _ => rfl, ⟨⟨rfl, rfl, rfl⟩, rfl, rfl, rfl⟩, ⟨rfl, rfl, rfl⟩⟩
    case stored =>
      have hreturn : s.nextPc.toNat = (s.pc.toNat + 4) % 65536 := Int.ofNat_inj.mp s.nextPc_toNat
      rw [← hreturn]
      exact storedAt_of_mem_eq_setWord rfl
  · exact raises_of_exec (execCall_error x y imm s hout)

/-- Settles O21: up to 4094 RET takes the word at `sp` to `pc` and moves `sp` past it; above it raises. -/
theorem retPopsIntoPc : Obligations.RetPopsIntoPc := by
  refine ⟨encodedAs_of_fields fun _ _ _ => rfl, fun s x y imm hin => ?_, fun s x y imm hout => ?_⟩
  · exact ⟨_, execRet_ok x y imm s hin, word_toNat s s.sp, sp_add_two_toNat hin, fun _ => rfl, fun _ => rfl,
      ⟨⟨rfl, rfl, rfl⟩, rfl, rfl, rfl⟩, ⟨rfl, rfl, rfl⟩⟩
  · exact raises_of_exec (execRet_error x y imm s hout)

end Sys2Proof.Machine
end

section
/-! Proofs for spec 44_stack.md: PUSH (R110) and POP (R111), on both sides of the last address with two bytes in memory. -/

namespace Sys2Proof.Machine

/-- Settles O24: with room PUSH leaves the memory with the register's word stored at the push address, the new `sp`, and
advances; without it raises. -/
theorem pushWritesWord : Obligations.PushWritesWord := by
  refine ⟨encodedAs_of_fields fun _ _ _ => rfl, fun s x y imm hin => ?_, fun s x y imm hout => ?_, State.pushAddr_toNat⟩
  · exact ⟨_, execPush_ok x y imm s hin, storedAt_of_mem_eq_setWord rfl, rfl, s.nextPc_eq, fun _ => rfl,
      ⟨⟨rfl, rfl, rfl⟩, rfl, rfl, rfl⟩, ⟨rfl, rfl, rfl⟩⟩
  · exact raises_of_exec (execPush_error x y imm s hout)

/-- Settles O25: up to 4094 POP is a register write of the word at `sp`, with `sp` moved past it; above it raises. -/
theorem popReadsWord : Obligations.PopReadsWord := by
  refine ⟨encodedAs_of_fields fun _ _ _ => rfl, fun s x y imm hin => ?_, fun s x y imm hout => ?_⟩
  · refine ⟨_, execPop_ok x y imm s hin, ?value, sp_add_two_toNat hin, ?others, s.nextPc_eq, fun _ => rfl,
      ⟨⟨rfl, rfl, rfl⟩, rfl, rfl, rfl⟩, ⟨rfl, rfl, rfl⟩⟩
    case value => rw [State.advance_reg, State.setReg_reg_self]; exact word_toNat s s.sp
    case others => exact fun q hq => State.setReg_reg_ne _ x q _ hq
  · exact raises_of_exec (execPop_error x y imm s hout)

end Sys2Proof.Machine
end

section
/-! Proofs for spec 45_system.md: INT with its four services (R115 to R119) and its unknown numbers (R121), and EXTENDED (R120). -/

namespace Sys2Proof.Machine

/-! ### INT by its number -/

theorem exec_int_zero (x y : Reg) (s : State) : exec (.int x y 0#16) s = .next (service0 s).advance :=
  execInt_service x y 0#16 s (by decide)

theorem exec_int_one (x y : Reg) (s : State) : exec (.int x y 1#16) s = .next (service1 s).advance :=
  execInt_service x y 1#16 s (by decide)

theorem exec_int_two (x y : Reg) (s : State) : exec (.int x y 2#16) s = .next (service2 s).advance :=
  execInt_service x y 2#16 s (by decide)

theorem exec_int_three (x y : Reg) (s : State) : exec (.int x y 3#16) s = .next (service3 s).advance :=
  execInt_service x y 3#16 s (by decide)

/-! ### The poll -/

/-- A listed answer is the one the poll gets (R135). -/
theorem State.pollAnswer_of_cons {s : State} {a : Option Byte} {rest : List (Option Byte)} (h : s.input = a :: rest) :
    s.pollAnswer = a := by
  rw [State.pollAnswer, h]

/-- With no listed answer the poll gets the free one (R135). -/
theorem State.pollAnswer_of_nil {s : State} (h : s.input = []) : s.pollAnswer = Config.tryReadByte s.pollCount := by
  rw [State.pollAnswer, h]

/-- A byte is zero-extended: as a number it is unchanged (R6, R118). -/
theorem pollValue_some_toNat (b : Byte) : (pollValue (some b)).toNat = b.toNat :=
  BitVec.toNat_setWidth_of_le (by decide)

theorem pollValue_none_toNat : (pollValue none).toNat = 0 := rfl

/-- Service 2 leaves the poll's answer in R0, and the advance of `pc` keeps it (R118). -/
theorem service2_advance_r0 (s : State) : (service2 s).advance.reg .r0 = pollValue s.pollAnswer := by
  rw [State.advance_reg, service2_eq, State.setReg_reg_self]

/-- R0 is the only register service 2 writes (R118). -/
theorem service2_advance_reg_of_ne {s : State} {q : Reg} (h : q ≠ .r0) : (service2 s).advance.reg q = s.reg q := by
  rw [State.advance_reg, service2_eq, State.setReg_reg_ne _ _ _ _ h, State.consumePoll_reg]

theorem service2_advance_input (s : State) : (service2 s).advance.input = s.input.tail := rfl

/-! ### The services -/

/-- Settles O27: service 0 is the stop with its cause latched, followed by the advance of `pc`. -/
theorem intZeroHalts : Obligations.IntZeroHalts := fun s x y =>
  ⟨_, exec_int_zero x y s, rfl, rfl, rfl, s.nextPc_eq, fun _ => rfl, rfl, fun _ => rfl, ⟨rfl, rfl, rfl⟩, ⟨rfl, rfl, rfl⟩⟩

/-- Settles O28: service 1 is one event emitted, followed by the advance of `pc`. -/
theorem intOneEmitsOutput : Obligations.IntOneEmitsOutput := fun s x y =>
  ⟨_, exec_int_one x y s, rfl, rfl, rfl, s.nextPc_eq, fun _ => rfl, rfl, fun _ => rfl, ⟨rfl, rfl, rfl⟩, rfl, rfl, rfl⟩

/-- Settles O29: R0 becomes the value of the poll's answer, which is the head of the answer list or, with none listed, the free
answer; either may be a byte or none. -/
theorem intTwoPolls : Obligations.IntTwoPolls := by
  intro s x y
  refine ⟨_, exec_int_two x y s, ?byte, ?noByte, ?free, rfl, rfl, fun _ => service2_advance_reg_of_ne, s.nextPc_eq, rfl,
    fun _ => rfl, ⟨⟨rfl, rfl, rfl⟩, rfl, rfl, rfl⟩⟩
  all_goals rw [service2_advance_r0, service2_advance_input]
  case byte =>
    intro b rest hinput
    rw [State.pollAnswer_of_cons hinput, hinput]
    exact ⟨pollValue_some_toNat b, rfl⟩
  case noByte =>
    intro rest hinput
    rw [State.pollAnswer_of_cons hinput, hinput]
    exact ⟨pollValue_none_toNat, rfl⟩
  case free =>
    intro hinput
    rw [State.pollAnswer_of_nil hinput, hinput]
    refine ⟨rfl, fun b hbyte => ?_, fun hnone => ?_⟩
    · rw [hbyte, pollValue_some_toNat]
    · rw [hnone, pollValue_none_toNat]

/-- Settles O30: service 3 is one event emitted, of R0's low byte, followed by the advance of `pc`. -/
theorem intThreeWritesByte : Obligations.IntThreeWritesByte := fun s x y =>
  ⟨_, _, exec_int_three x y s, rfl, lowByte_toNat (s.reg .r0), rfl, rfl, s.nextPc_eq, fun _ => rfl, rfl, fun _ => rfl,
    ⟨rfl, rfl, rfl⟩, rfl, rfl, rfl⟩

/-- Settles O31: a number with no service is a raise. -/
theorem intUnknownRaises : Obligations.IntUnknownRaises := fun s x y imm hunknown =>
  raises_of_exec (execInt_unknown x y imm s hunknown)

/-! ### EXTENDED -/

/-- Settles O32: EXTENDED is the advance of `pc`, one write of `pc`. -/
theorem extendedIsNoOp : Obligations.ExtendedIsNoOp :=
  ⟨encodedAs_of_fields fun _ _ _ => rfl, fun s _ _ _ => setsPc_of_exec rfl s.nextPc_toNat⟩

end Sys2Proof.Machine
end

section
/-! Proofs for spec 50_blocks_and_interfaces.md: the host's operations keep the invariant (R129 to R132, R170), and what each
of run, the limit's two and the stop request does at an instruction boundary (R130 to R132). -/

namespace Sys2Proof.Machine

/-! ### The invariant -/

/-- Settles O59, by the cases of `hostMove_cases` that `inv_hostMove` goes through. -/
theorem hostMoveKeepsInv : Obligations.HostMoveKeepsInv := fun _ _ _ _ h hop => inv_hostMove h hop

/-! ### The operations of a stopped machine -/

/-- A run of a stopped machine, with its default start (R5, R130). -/
theorem hostMove_run_of_stopped {base : ProgramBase} {s : State} {start : Option Word} (hstop : s.running = false) :
    hostMove base (.run start) s = .next (startRun s (start.getD base.word)) :=
  whenStopped_stopped s _ hstop

theorem hostMove_setInstructionLimit_of_stopped {base : ProgramBase} {s : State} {n : Nat} (hstop : s.running = false) :
    hostMove base (.setInstructionLimit n) s = .next { s with limit := some n } :=
  whenStopped_stopped s _ hstop

theorem hostMove_clearInstructionLimit_of_stopped {base : ProgramBase} {s : State} (hstop : s.running = false) :
    hostMove base .clearInstructionLimit s = .next { s with limit := none } :=
  whenStopped_stopped s _ hstop

/-- Settles O52: run is `startRun`, which keeps what it does not clear, at the given start or at `PROGRAM_BASE`, which as a
16-bit address is itself. -/
theorem runStartsTheMachine : Obligations.RunStartsTheMachine := by
  intro base s start p hstop hstart
  have hpc : (start.getD base.word).toNat = p := by
    obtain ⟨w, rfl, rfl⟩ | ⟨rfl, rfl⟩ := hstart
    · rfl
    · exact programBase_word_toNat base
  exact ⟨_, hostMove_run_of_stopped hstop, hpc, rfl, rfl, rfl, rfl, rfl, startRun_reg s _, rfl, fun _ => rfl, rfl,
    rfl, rfl, rfl⟩

/-- Settles O53: both operations write the limit alone. -/
theorem limitIsSetAndCleared : Obligations.LimitIsSetAndCleared := fun _ _ _ hstop =>
  ⟨hostMove_setInstructionLimit_of_stopped hstop, hostMove_clearInstructionLimit_of_stopped hstop⟩

/-! ### The stop request -/

theorem hostMove_stop_of_running {base : ProgramBase} {s : State} (hrun : s.running = true) :
    hostMove base .stop s = .next (halt s .hostStop) := by
  rw [hostMove, hostStop, if_pos hrun]

theorem hostMove_stop_of_stopped {base : ProgramBase} {s : State} (hstop : s.running = false) :
    hostMove base .stop s = .next s := by
  rw [hostMove, hostStop, if_neg (Bool.eq_false_iff.mp hstop)]

/-- Settles O54: on a running machine the stop request is the halt with the host's cause; on a stopped one it answers the same
state. -/
theorem hostStopsAtBoundary : Obligations.HostStopsAtBoundary := fun _ _ =>
  ⟨hostMove_stop_of_running, hostMove_stop_of_stopped⟩

end Sys2Proof.Machine
end

section
/-! Proofs for spec 60_exceptions.md: the runaway guard's error (R147), the limit's error (R148), the precision of every error
(R150), the sequencer state that no instruction reaches (R160, R161), and the limit as a single step (R164). -/

namespace Sys2Proof.Machine

/-! ### The sequencer state -/

/-- The state with another limit and other counters, which only the sequencer and the host write (R160, R161). -/
def State.withSequencer (s : State) (l : Option Nat) (n k : Nat) : State :=
  { s with limit := l, execCount := n, nopCount := k }

/-- Neither the limit nor a counter decides whether an instruction raises. -/
theorem raisedError_withSequencer (i : Instr) (s : State) (l : Option Nat) (n k : Nat) :
    raisedError i (s.withSequencer l n k) = raisedError i s := by
  cases i <;> rfl

theorem serviceState_withSequencer (v : Word) (s : State) (l : Option Nat) (n k : Nat) :
    serviceState v (s.withSequencer l n k) = (serviceState v s).withSequencer l n k := by
  unfold serviceState
  split_ifs <;> rfl

/-- A completed instruction carries the limit and the counters through. -/
theorem completedState_withSequencer (i : Instr) (s : State) (l : Option Nat) (n k : Nat) :
    completedState i (s.withSequencer l n k) = (completedState i s).withSequencer l n k := by
  cases i with
  | int x y v => exact congrArg State.advance (serviceState_withSequencer v s l n k)
  | _ => rfl

theorem exec_withSequencer {i : Instr} {s t : State} (l : Option Nat) (n k : Nat) (hexec : exec i s = .next t) :
    exec i (s.withSequencer l n k) = .next (t.withSequencer l n k) := by
  obtain rfl := next_inj ((exec_eq i s).symm.trans hexec)
  rw [exec_eq, raisedError_withSequencer, completedState_withSequencer]
  cases raisedError i s <;> rfl

/-- Whether it raises or completes, an instruction keeps the limit and both counters. -/
theorem exec_sameCounters {i : Instr} {s t : State} (hexec : exec i s = .next t) : Claims.SameCounters s t := by
  obtain ⟨u, hu, hout⟩ := exec_outcome i s
  obtain rfl : t = u := next_inj (hexec.symm.trans hu)
  obtain ⟨e, _, rfl⟩ | hdone := hout
  · exact ⟨rfl, rfl, rfl⟩
  · exact ⟨hdone.nopCount, hdone.execCount, hdone.limit⟩

/-- Settles O39: the frame of the writes, and the same error or the same completion from any other sequencer state. -/
theorem sequencerIsOutOfReach : Obligations.SequencerIsOutOfReach := fun _ _ _ l n k hexec =>
  ⟨exec_sameCounters hexec, exec_withSequencer l n k hexec⟩

/-! ### The limit's error -/

/-- The end of a step whose instruction brings the count to the limit (R77). -/
theorem endOfStep_of_limit {u : State} {n : Nat} (herr : u.error = none) (hlim : u.limit = some n)
    (hn : n ≤ u.execCount + 1) : endOfStep u = raise (countInstr u) .instructionLimitExceeded := by
  have hreached : limitReached (countInstr u) = true := (limitReached_iff _).mpr ⟨n, hlim, hn⟩
  rw [endOfStep, if_neg (by simp [herr]), checks, if_pos hreached]

/-- Settles O44: from a fresh guard count the instruction is dispatched; it keeps the limit and the count, so the check after it
is the one on the old count plus one. -/
theorem limitErrorKeepsInstruction : Obligations.LimitErrorKeepsInstruction := by
  intro s t n hrun hpc hnop hlim hn hexec herr
  have hguarded : guardCount (Claims.instrAt s) s =
      { s with nopCount := if Claims.instrAt s = .mov .r0 .r0 0#16 then 1 else 0 } := by
    rw [guardCount_eq, hnop]
  rw [← hguarded] at hexec
  obtain ⟨_, hcount, hlimit⟩ := exec_sameCounters hexec
  rw [guardCount_execCount] at hcount
  rw [step_of_fetch_ok hrun (fetch_ok hpc) (by simp [hnop]), hexec, finish,
    endOfStep_of_limit herr (hlimit.trans hlim) (hcount ▸ hn), ← hcount]
  rfl

/-- Settles O49: the two host operations leave a running machine with limit 1 and no instruction counted, whose first step is
that of the limit's error. -/
theorem limitOneIsASingleStep : Obligations.LimitOneIsASingleStep := fun _ _ t hstop hpc hexec herr =>
  ⟨_, _, hostMove_setInstructionLimit_of_stopped hstop, hostMove_run_of_stopped hstop,
    limitErrorKeepsInstruction _ t 1 rfl hpc rfl rfl (Nat.le_refl 1) hexec herr⟩

/-! ### The precision of errors -/

/-- The errors an instruction raises of its own do not include the limit's (R152). -/
theorem OwnError.ne_limit {e : ExecError} (h : OwnError e) : e ≠ .instructionLimitExceeded := by
  obtain ⟨c, rfl, _⟩ | ⟨a, rfl, _⟩ := h <;> nofun

/-- The end of a step whose instruction latched no error latches the limit's or none (R70). -/
theorem endOfStep_error_cases {u : State} {e : ExecError} (herr : u.error = none) (h : (endOfStep u).error = some e) :
    e = .instructionLimitExceeded ∧ endOfStep u = raise (countInstr u) e := by
  obtain ⟨hraised, _⟩ | ⟨_, _, heq⟩ | ⟨_, _, _, _, heq⟩ | ⟨_, _, _, heq⟩ := endOfStep_cases u
  · simp [herr] at hraised
  · obtain rfl : .instructionLimitExceeded = e := by simpa [heq] using h
    exact ⟨rfl, heq⟩
  all_goals simp [heq, herr] at h

/-- How a step of a running machine ends with an error: the fetch raised it; the guard, or the instruction itself, raised it, in
the state with the guard's count; or it is the limit's, raised on what the instruction left, counted (R150, R152). -/
theorem step_error_cases {s t : State} {e : ExecError} (hrun : s.running = true) (herr : s.error = none)
    (hstep : step s = .next t) (he : t.error = some e) :
    (e ≠ .instructionLimitExceeded ∧ 4092 < s.pc.toNat ∧ t = raise s e) ∨
    (e ≠ .instructionLimitExceeded ∧ s.pc.toNat ≤ 4092 ∧ t = raise (guardCount (Claims.instrAt s) s) e) ∨
    (e = .instructionLimitExceeded ∧ s.pc.toNat ≤ 4092 ∧ ∃ u,
      exec (Claims.instrAt s) (guardCount (Claims.instrAt s) s) = .next u ∧ u.error = none ∧ t = raise (countInstr u) e) := by
  obtain ⟨hstop, _⟩ | ⟨_, hpc, rfl⟩ | ⟨_, _, hfetch, rfl⟩ | ⟨_, i, u, hfetch, _, hexec, rfl⟩ := step_cases hstep
  · simp [hrun] at hstop
  · obtain rfl := Option.some.inj he
    exact .inl ⟨nofun, hpc, rfl⟩
  · obtain rfl := Option.some.inj he
    obtain ⟨hpc, hinstr⟩ : s.pc.toNat ≤ 4092 ∧ _ = Claims.instrAt s := fetch_ok_inv hfetch
    exact .inr (.inl ⟨nofun, hpc, by rw [hinstr]⟩)
  · obtain ⟨hpc, rfl⟩ : s.pc.toNat ≤ 4092 ∧ i = Claims.instrAt s := fetch_ok_inv hfetch
    obtain ⟨u', hu', hout⟩ := exec_outcome (Claims.instrAt s) (guardCount (Claims.instrAt s) s)
    obtain rfl : u = u' := next_inj (hexec.symm.trans hu')
    obtain ⟨e', hown, rfl⟩ | hdone := hout
    · rw [endOfStep_of_error (by simp)] at he ⊢
      obtain rfl := Option.some.inj he
      exact .inr (.inl ⟨hown.ne_limit, hpc, rfl⟩)
    · have hnone : u.error = none := hdone.error.trans herr
      obtain ⟨hlimit, heq⟩ := endOfStep_error_cases hnone he
      exact .inr (.inr ⟨hlimit, hpc, u, hexec, hnone, heq⟩)

/-- Settles O45, by who raised the error: the fetch, the guard or the instruction, or the limit's check. -/
theorem errorsArePrecise : Obligations.ErrorsArePrecise := by
  intro s t e hrun herr hstep he
  obtain ⟨hne, hpc, rfl⟩ | ⟨hne, hpc, rfl⟩ | ⟨hlimit, hpc, u, hexec, hnone, rfl⟩ := step_error_cases hrun herr hstep he
  · exact ⟨fun _ => ⟨rfl, fun hin => absurd hin (Nat.not_le.mpr hpc), fun _ => rfl⟩, fun h => absurd h hne⟩
  · refine ⟨fun _ => ⟨rfl, fun _ => ?_, fun hout => absurd hpc (Nat.not_le.mpr hout)⟩, fun h => absurd h hne⟩
    rw [guardCount_eq]
    rfl
  · refine ⟨fun hne => absurd hlimit hne, fun _ => ⟨hpc, u, guardCount_eq _ s ▸ hexec, hnone, ?_⟩⟩
    obtain ⟨_, hcount, _⟩ := exec_sameCounters hexec
    rw [guardCount_execCount] at hcount
    rw [← hcount]
    rfl

/-! ### The runaway guard's error -/

/-- Part (c) of the step, where the guard raises: the second of two `MOV R0, #0` (R74). -/
theorem step_of_runaway {s : State} (hrun : s.running = true) (hpc : s.pc.toNat ≤ 4092)
    (hinstr : Claims.instrAt s = .mov .r0 .r0 0#16) (hnop : 1 ≤ s.nopCount) :
    step s = .next { s with running := false, error := some .runawayExecution, nopCount := s.nopCount + 1 } := by
  have hraises : guardRaises (.mov .r0 .r0 0#16) s = true := (guardRaises_iff _ s).mpr ⟨rfl, hnop⟩
  rw [step, cycle, if_pos hrun, fetch_ok hpc, hinstr]
  exact if_pos hraises

/-- The end of a step whose instruction completed under the limit and inside memory is the count alone (R77, R78). -/
theorem endOfStep_of_continues {u : State} (herr : u.error = none) (hlim : ∀ n, u.limit = some n → u.execCount + 1 < n)
    (hpc : u.pc.toNat < memorySize) : endOfStep u = countInstr u := by
  obtain ⟨hraised, _⟩ | ⟨_, hreached, _⟩ | ⟨_, _, _, hend, _⟩ | ⟨_, _, _, heq⟩ := endOfStep_cases u
  · simp [herr] at hraised
  · obtain ⟨n, hn, hle⟩ := (limitReached_iff _).mp hreached
    exact absurd (hlim n hn) (Nat.not_lt.mpr hle)
  · exact absurd hpc (Nat.not_lt.mpr hend)
  · exact heq

/-- What a `MOV R0, #0` that is executed leaves when the run goes on. -/
def State.afterMovZero (s : State) : State := countInstr ({ s with nopCount := 1 }.setReg .r0 0#16).advance

theorem State.afterMovZero_pc_toNat {s : State} (hpc : s.pc.toNat ≤ 4092) : s.afterMovZero.pc.toNat = s.pc.toNat + 4 := by
  change s.nextPc.toNat = _
  have := s.nextPc_toNat
  omega

/-- The first of two `MOV R0, #0`: the guard counts it and does not raise (R74, R147). -/
theorem step_of_first_movZero {s : State} (hrun : s.running = true) (herr : s.error = none) (hnop : s.nopCount = 0)
    (hlim : ∀ n, s.limit = some n → s.execCount + 1 < n) (hpc : s.pc.toNat ≤ 4088)
    (hinstr : Claims.instrAt s = .mov .r0 .r0 0#16) : step s = .next s.afterMovZero := by
  have hpc' : s.pc.toNat ≤ 4092 := by omega
  have hinside : s.afterMovZero.pc.toNat < memorySize := by
    rw [State.afterMovZero_pc_toNat hpc', memorySize]
    omega
  have hguarded : guardCount (Claims.instrAt s) s = { s with nopCount := 1 } := by
    rw [guardCount_eq, if_pos hinstr, hnop]
  rw [step_of_fetch_ok hrun (fetch_ok hpc') (by simp [hnop]), hguarded, hinstr]
  exact congrArg _ (endOfStep_of_continues (u := ({ s with nopCount := 1 }.setReg .r0 0#16).advance) herr hlim hinside)

/-- The reserved byte of a `MOV R0, #0` may be any (R56). -/
theorem instrAt_eq_movZero {s : State} {r : Byte} (h0 : s.mem.read s.pc.toNat = 0) (h1 : s.mem.read (s.pc.toNat + 1) = r)
    (h2 : s.mem.read (s.pc.toNat + 2) = 0) (h3 : s.mem.read (s.pc.toNat + 3) = 0) :
    Claims.instrAt s = .mov .r0 .r0 0#16 := by
  rw [Claims.instrAt, h0, h1, h2, h3]
  rfl

/-- Settles O43: the guard's raise; and before it, from a fresh count, the step of the first instruction, which leaves the
second at `pc`. -/
theorem secondMovZeroIsRunaway : Obligations.SecondMovZeroIsRunaway := by
  refine ⟨fun s => step_of_runaway, fun s r1 r2 hrun herr hnop hlim hpc hbytes => ?_⟩
  obtain ⟨h0, h1, h2, h3, h4, h5, h6, h7⟩ : s.mem.read s.pc.toNat = 0 ∧ s.mem.read (s.pc.toNat + 1) = r1 ∧
      s.mem.read (s.pc.toNat + 2) = 0 ∧ s.mem.read (s.pc.toNat + 3) = 0 ∧ s.mem.read (s.pc.toNat + 4) = 0 ∧
      s.mem.read (s.pc.toNat + 5) = r2 ∧ s.mem.read (s.pc.toNat + 6) = 0 ∧ s.mem.read (s.pc.toNat + 7) = 0 := by
    simpa [List.range_succ] using hbytes
  have hnext : s.afterMovZero.pc.toNat = s.pc.toNat + 4 := State.afterMovZero_pc_toNat (by omega)
  have hsecond : Claims.instrAt s.afterMovZero = .mov .r0 .r0 0#16 := by
    apply instrAt_eq_movZero (r := r2) <;> rw [hnext] <;> assumption
  refine ⟨_, _, step_of_first_movZero hrun herr hnop hlim hpc (instrAt_eq_movZero h0 h1 h2 h3),
    step_of_runaway hrun (by omega) hsecond (Nat.le_refl 1), hrun, herr, rfl, hnext, rfl, rfl, rfl, rfl, hnext, rfl,
    fun q hq => State.setReg_reg_ne s .r0 q 0#16 hq, fun _ => rfl, rfl, rfl, rfl, rfl, rfl, rfl⟩

end Sys2Proof.Machine
end
